-- ==== Sys2Proof/Word.lean ====
section
/-!
DEFINITION. The two bit-vector types of the CHIP-8 block: a byte (registers, memory, timers: 00_scope.md R1, R7)
and a 16-bit word (I, pc, stack slots, opcodes: 10_state.md R23–R25, 30_encoding.md R70). Both are unsigned; the
arithmetic of `BitVec` wraps, which is the `mod 256` and `mod 65536` of 00_scope.md R7.
-/

namespace Sys2Proof

/-- An 8-bit unsigned value. -/
abbrev Byte := BitVec 8

/-- A 16-bit unsigned value. -/
abbrev Word := BitVec 16

end Sys2Proof
end

