-- ==== Sys2Proof/Config.lean ====
section
/-!
DEFINITION. The implementation parameters of 00_scope.md R4 at the values this hardware takes, and the free values:
the random byte of `Cxkk` (41_alu.md R131) and the state a faulting step leaves (60_exceptions.md R217).
Parameters whose value is only a bound of a type (NUM_V, STACK_DEPTH, NUM_KEYS, the widths) stand in that type.
STEPS_PER_TICK is OPEN in the spec (D19): it is an argument of `Sys2Proof.Machine.pacedSchedule`, not a constant.
-/

namespace Sys2Proof.Config

/-- MEM_SIZE (00_scope.md R4, 20_memory.md R50): addresses run from 0 to `memSize - 1`. -/
def memSize : Nat := 4096

/-- PROGRAM_BASE (R4): the reset pc and the load address. -/
def programBase : Nat := 0x200

/-- MAX_IMAGE (R4): the longest image `load` accepts, 3584 bytes. -/
def maxImage : Nat := memSize - programBase

/-- FONT_BASE (R4). DESIGN CHOICE (the spec's D5; log entry 7). -/
def fontBase : Nat := 0x050

/-- FONT_GLYPH_BYTES (R4): one glyph is five rows. -/
def glyphBytes : Nat := 5

/-- FONT (R4, 20_memory.md R55), one line per glyph. PRESUMED (the spec's general knowledge, D4, G1; log entry 6). -/
def glyphs : List (List Byte) :=
  [[0xF0, 0x90, 0x90, 0x90, 0xF0],
   [0x20, 0x60, 0x20, 0x20, 0x70],
   [0xF0, 0x10, 0xF0, 0x80, 0xF0],
   [0xF0, 0x10, 0xF0, 0x10, 0xF0],
   [0x90, 0x90, 0xF0, 0x10, 0x10],
   [0xF0, 0x80, 0xF0, 0x10, 0xF0],
   [0xF0, 0x80, 0xF0, 0x90, 0xF0],
   [0xF0, 0x10, 0x20, 0x40, 0x40]] ++
  [[0xF0, 0x90, 0xF0, 0x90, 0xF0],
   [0xF0, 0x90, 0xF0, 0x10, 0xF0],
   [0xF0, 0x90, 0xF0, 0x90, 0x90],
   [0xE0, 0x90, 0xE0, 0x90, 0xE0],
   [0xF0, 0x80, 0x80, 0x80, 0xF0],
   [0xE0, 0x90, 0x90, 0x90, 0xE0],
   [0xF0, 0x80, 0xF0, 0x80, 0xF0],
   [0xF0, 0x80, 0xF0, 0x80, 0x80]]

/-- The 80 font bytes in address order (20_memory.md R53, R55). -/
def font : List Byte := glyphs.flatten

/-- FREE VALUE (log entry 3): the `k`-th byte drawn from the `RNG` input, 0 to 255 under no law
(10_state.md R33, 60_exceptions.md R229; D18). -/
opaque randomByte (k : Nat) : Byte

/-- FREE VALUE (log entry 2): what a faulting step leaves in a piece of data that held `before`; `k` is the draw
counter (60_exceptions.md R217: "partial register/memory mutation state is unspecified"; D12, U1). -/
opaque afterFault {σ : Type} [Inhabited σ] (k : Nat) (before : σ) : σ

end Sys2Proof.Config
end

