-- ==== Sys2Proof/Syntax.lean ====
section
/-!
DEFINITION. The instruction set: one constructor per row of spec/opcode_table.json, which is the opcode map of
30_encoding.md R75 (34 instructions, no extension: 00_scope.md R1).
-/

namespace Sys2Proof

/-- The 4-bit `x` or `y` field: the number of a general register V0–VF (10_state.md R21, 30_encoding.md R71). -/
abbrev RegIndex := Fin 16

/-- An instruction as a tagged variant (30_encoding.md R80). `x` and `y` are register numbers, `kk` a byte immediate,
`nnn` a 12-bit address immediate, `n` a sprite row count (30_encoding.md R71, R73). -/
inductive Instr where
  /-- 00E0 `CLS` (43_display.md R170) -/
  | cls
  /-- 00EE `RET` (40_control_flow.md R100) -/
  | ret
  /-- 1nnn `JP nnn` (40_control_flow.md R101) -/
  | jp (nnn : BitVec 12)
  /-- 2nnn `CALL nnn` (40_control_flow.md R102) -/
  | call (nnn : BitVec 12)
  /-- 3xkk `SE Vx, kk` (40_control_flow.md R103) -/
  | seImm (x : RegIndex) (kk : Byte)
  /-- 4xkk `SNE Vx, kk` (40_control_flow.md R104) -/
  | sneImm (x : RegIndex) (kk : Byte)
  /-- 5xy0 `SE Vx, Vy` (40_control_flow.md R105) -/
  | seReg (x y : RegIndex)
  /-- 6xkk `LD Vx, kk` (41_alu.md R120) -/
  | ldImm (x : RegIndex) (kk : Byte)
  /-- 7xkk `ADD Vx, kk` (41_alu.md R121) -/
  | addImm (x : RegIndex) (kk : Byte)
  /-- 8xy0 `LD Vx, Vy` (41_alu.md R122) -/
  | ldReg (x y : RegIndex)
  /-- 8xy1 `OR Vx, Vy` (41_alu.md R123) -/
  | orReg (x y : RegIndex)
  /-- 8xy2 `AND Vx, Vy` (41_alu.md R124) -/
  | andReg (x y : RegIndex)
  /-- 8xy3 `XOR Vx, Vy` (41_alu.md R125) -/
  | xorReg (x y : RegIndex)
  /-- 8xy4 `ADD Vx, Vy` (41_alu.md R126) -/
  | addReg (x y : RegIndex)
  /-- 8xy5 `SUB Vx, Vy` (41_alu.md R127) -/
  | subReg (x y : RegIndex)
  /-- 8xy6 `SHR Vx, Vy`; the `y` field is present and ignored (41_alu.md R128) -/
  | shr (x y : RegIndex)
  /-- 8xy7 `SUBN Vx, Vy` (41_alu.md R129) -/
  | subnReg (x y : RegIndex)
  /-- 8xyE `SHL Vx, Vy`; the `y` field is present and ignored (41_alu.md R130) -/
  | shl (x y : RegIndex)
  /-- 9xy0 `SNE Vx, Vy` (40_control_flow.md R106) -/
  | sneReg (x y : RegIndex)
  /-- Annn `LD I, nnn` (42_index_memory.md R150) -/
  | ldI (nnn : BitVec 12)
  /-- Bnnn `JP V0, nnn` (40_control_flow.md R107) -/
  | jpV0 (nnn : BitVec 12)
  /-- Cxkk `RND Vx, kk` (41_alu.md R131) -/
  | rnd (x : RegIndex) (kk : Byte)
  /-- Dxyn `DRW Vx, Vy, n` (43_display.md R171); the row count `n` is 0 to 15 -/
  | drw (x y : RegIndex) (n : Nat)
  /-- Ex9E `SKP Vx` (44_timers_keypad.md R190) -/
  | skp (x : RegIndex)
  /-- ExA1 `SKNP Vx` (44_timers_keypad.md R191) -/
  | sknp (x : RegIndex)
  /-- Fx07 `LD Vx, DT` (44_timers_keypad.md R192) -/
  | ldVxDt (x : RegIndex)
  /-- Fx0A `LD Vx, K` (44_timers_keypad.md R193) -/
  | ldVxK (x : RegIndex)
  /-- Fx15 `LD DT, Vx` (44_timers_keypad.md R194) -/
  | ldDtVx (x : RegIndex)
  /-- Fx18 `LD ST, Vx` (44_timers_keypad.md R195) -/
  | ldStVx (x : RegIndex)
  /-- Fx1E `ADD I, Vx` (42_index_memory.md R151) -/
  | addI (x : RegIndex)
  /-- Fx29 `LD F, Vx` (42_index_memory.md R152) -/
  | ldF (x : RegIndex)
  /-- Fx33 `LD B, Vx` (42_index_memory.md R153) -/
  | ldB (x : RegIndex)
  /-- Fx55 `LD [I], Vx` (42_index_memory.md R154) -/
  | storeRegs (x : RegIndex)
  /-- Fx65 `LD Vx, [I]` (42_index_memory.md R155) -/
  | loadRegs (x : RegIndex)
  deriving DecidableEq, Repr

end Sys2Proof
end

