-- ==== Sys2Proof/Decode.lean ====
section
/-!
DEFINITION. The decoder (30_encoding.md R70–R76), total on every pair of bytes, the encoder written from the formats of
R72, and the host's entry `decodeTableWord`. An illegal word is rejected by name, with the word itself (R76).
-/

namespace Sys2Proof

/-- The top nibble `t = op[15:12]` (30_encoding.md R71). -/
def opTop (op : Word) : BitVec 4 := op.extractLsb' 12 4

/-- The field `x = op[11:8]` (R71). -/
def opX (op : Word) : RegIndex := (op.extractLsb' 8 4).toFin

/-- The field `y = op[7:4]` (R71). -/
def opY (op : Word) : RegIndex := (op.extractLsb' 4 4).toFin

/-- The field `n = op[3:0]` (R71). -/
def opN (op : Word) : BitVec 4 := op.extractLsb' 0 4

/-- The field `kk = op[7:0]` (R71). -/
def opKK (op : Word) : Byte := op.extractLsb' 0 8

/-- The field `nnn = op[11:0]` (R71). -/
def opNNN (op : Word) : BitVec 12 := op.extractLsb' 0 12

/-- Top nibble 0x0: exactly the words 00E0 and 00EE (R75); every other 0nnn word is illegal (R76, D10). -/
def decodeFixed (op : Word) : Option Instr :=
  if op = 0x00E0 then some .cls else if op = 0x00EE then some .ret else none

/-- Top nibble 0x8: the nine function nibbles 0–7 and E (R75); the rest is illegal (R76, C14). -/
def decodeAlu (op : Word) : Option Instr :=
  match (opN op).toNat with
  | 0x0 => some (.ldReg (opX op) (opY op))
  | 0x1 => some (.orReg (opX op) (opY op))
  | 0x2 => some (.andReg (opX op) (opY op))
  | 0x3 => some (.xorReg (opX op) (opY op))
  | 0x4 => some (.addReg (opX op) (opY op))
  | 0x5 => some (.subReg (opX op) (opY op))
  | 0x6 => some (.shr (opX op) (opY op))
  | 0x7 => some (.subnReg (opX op) (opY op))
  | 0xE => some (.shl (opX op) (opY op))
  | _ => none

/-- Top nibble 0xE: the function bytes 9E and A1 (R75). -/
def decodeKey (op : Word) : Option Instr :=
  match (opKK op).toNat with
  | 0x9E => some (.skp (opX op))
  | 0xA1 => some (.sknp (opX op))
  | _ => none

/-- Top nibble 0xF: the nine function bytes of R75. -/
def decodeMisc (op : Word) : Option Instr :=
  match (opKK op).toNat with
  | 0x07 => some (.ldVxDt (opX op))
  | 0x0A => some (.ldVxK (opX op))
  | 0x15 => some (.ldDtVx (opX op))
  | 0x18 => some (.ldStVx (opX op))
  | 0x1E => some (.addI (opX op))
  | 0x29 => some (.ldF (opX op))
  | 0x33 => some (.ldB (opX op))
  | 0x55 => some (.storeRegs (opX op))
  | 0x65 => some (.loadRegs (opX op))
  | _ => none

/-- The opcode map `Decode(op)` of 30_encoding.md R75: the instruction of a legal word, `none` for an illegal one (R76). -/
def decodeWord (op : Word) : Option Instr :=
  match (opTop op).toNat with
  | 0x0 => decodeFixed op
  | 0x1 => some (.jp (opNNN op))
  | 0x2 => some (.call (opNNN op))
  | 0x3 => some (.seImm (opX op) (opKK op))
  | 0x4 => some (.sneImm (opX op) (opKK op))
  | 0x5 => if opN op = 0 then some (.seReg (opX op) (opY op)) else none
  | 0x6 => some (.ldImm (opX op) (opKK op))
  | 0x7 => some (.addImm (opX op) (opKK op))
  | 0x8 => decodeAlu op
  | 0x9 => if opN op = 0 then some (.sneReg (opX op) (opY op)) else none
  | 0xA => some (.ldI (opNNN op))
  | 0xB => some (.jpV0 (opNNN op))
  | 0xC => some (.rnd (opX op) (opKK op))
  | 0xD => some (.drw (opX op) (opY op) (opN op).toNat)
  | 0xE => decodeKey op
  | 0xF => decodeMisc op
  | _ => none

/-- Why a pair of bytes is no instruction. -/
inductive DecodeError where
  /-- The word matches no row of 30_encoding.md R75; it carries "the full 16-bit word" (R76). -/
  | unknownOpcode (op : Word)
  deriving DecidableEq, Repr

/-- The opcode formed from two bytes, "big-endian: high byte first" (20_memory.md R56, 30_encoding.md R74). -/
def wordOfBytes (hi lo : Byte) : Word := hi ++ lo

/-- The high byte of a word, which lies at the lower address (30_encoding.md R70). -/
def hiByte (op : Word) : Byte := op.extractLsb' 8 8

/-- The low byte of a word. -/
def loByte (op : Word) : Byte := op.extractLsb' 0 8

/-- The decoder over the two bytes of an instruction, in address order (30_encoding.md R70, R74–R76). -/
def decode (hi lo : Byte) : Except DecodeError Instr :=
  match decodeWord (wordOfBytes hi lo) with
  | some i => .ok i
  | none => .error (.unknownOpcode (wordOfBytes hi lo))

/-- Format `nnn` of 30_encoding.md R72: `tttt nnnn nnnn nnnn`. -/
def formNNN (t : BitVec 4) (nnn : BitVec 12) : Word := t ++ nnn

/-- Format `xkk` (R72): `tttt xxxx kkkk kkkk`; with a function byte as `kk` it is the format `x_func`. -/
def formXKK (t : BitVec 4) (x : RegIndex) (kk : Byte) : Word := t ++ BitVec.ofFin (w := 4) x ++ kk

/-- Format `xyn` (R72): `tttt xxxx yyyy nnnn`; with a function nibble as `n` it is the format `xy_func`. -/
def formXYN (t : BitVec 4) (x y : RegIndex) (n : BitVec 4) : Word :=
  t ++ BitVec.ofFin (w := 4) x ++ BitVec.ofFin (w := 4) y ++ n

/-- The word of a well-formed instruction, written from the formats of 30_encoding.md R72 and the patterns of R75. -/
def encode : Instr → Word
  | .cls => 0x00E0
  | .ret => 0x00EE
  | .jp nnn => formNNN 0x1 nnn
  | .call nnn => formNNN 0x2 nnn
  | .seImm x kk => formXKK 0x3 x kk
  | .sneImm x kk => formXKK 0x4 x kk
  | .seReg x y => formXYN 0x5 x y 0x0
  | .ldImm x kk => formXKK 0x6 x kk
  | .addImm x kk => formXKK 0x7 x kk
  | .ldReg x y => formXYN 0x8 x y 0x0
  | .orReg x y => formXYN 0x8 x y 0x1
  | .andReg x y => formXYN 0x8 x y 0x2
  | .xorReg x y => formXYN 0x8 x y 0x3
  | .addReg x y => formXYN 0x8 x y 0x4
  | .subReg x y => formXYN 0x8 x y 0x5
  | .shr x y => formXYN 0x8 x y 0x6
  | .subnReg x y => formXYN 0x8 x y 0x7
  | .shl x y => formXYN 0x8 x y 0xE
  | .sneReg x y => formXYN 0x9 x y 0x0
  | .ldI nnn => formNNN 0xA nnn
  | .jpV0 nnn => formNNN 0xB nnn
  | .rnd x kk => formXKK 0xC x kk
  | .drw x y n => formXYN 0xD x y (BitVec.ofNat 4 n)
  | .skp x => formXKK 0xE x 0x9E
  | .sknp x => formXKK 0xE x 0xA1
  | .ldVxDt x => formXKK 0xF x 0x07
  | .ldVxK x => formXKK 0xF x 0x0A
  | .ldDtVx x => formXKK 0xF x 0x15
  | .ldStVx x => formXKK 0xF x 0x18
  | .addI x => formXKK 0xF x 0x1E
  | .ldF x => formXKK 0xF x 0x29
  | .ldB x => formXKK 0xF x 0x33
  | .storeRegs x => formXKK 0xF x 0x55
  | .loadRegs x => formXKK 0xF x 0x65

/-- The opcode word of an instruction the table numbers with `nbits` bits, the bits above them 0. Every instruction of
this table is one 16-bit word, whose bit 0 is the table's bit 0. -/
def tableWord (nbits w : Nat) : Word := BitVec.ofNat 16 (w % 2 ^ nbits)

/-- The host's entry: the word laid out as two bytes, high byte first, and given to the decoder. -/
def decodeTableWord (nbits w : Nat) : Option Instr :=
  match decode (hiByte (tableWord nbits w)) (loByte (tableWord nbits w)) with
  | .ok i => some i
  | .error _ => none

end Sys2Proof
end

