-- ==== Sys2Proof/Machine/State.lean ====
section
/-!
DEFINITION. The architectural state of 10_state.md R20, the faults of 60_exceptions.md R210, the refusals of the model,
and the state after reset (10_state.md R35). State is plain data.
-/

namespace Sys2Proof.Machine

open Sys2Proof

/-- The machine faults of 60_exceptions.md R210, codes 1 to 5. A raising step sets `status` to `faulted` with one of them
(R217); the outcome `fault` with the same value is what a command on an already faulted machine answers, which has no
transition (R218). -/
inductive Fault where
  /-- Raised by `step` when the fetched word is illegal; carries the word (60_exceptions.md R211). Safe: the spec names it. -/
  | unknownOpcode (op : Word)
  /-- Raised by `2nnn` when SP = 16 (R212). Safe: the spec names it. -/
  | stackOverflow
  /-- Raised by `00EE` when SP = 0 (R213). Safe: the spec names it. -/
  | stackUnderflow
  /-- Raised by fetch, `Dxyn`, `Fx33`, `Fx55`, `Fx65`; carries the first out-of-range address (R214). Safe: the spec names it. -/
  | memoryOutOfRange (addr : Nat)
  /-- Raised by `Ex9E` and `ExA1` when Vx > 15; carries Vx (R215). Safe: the spec names it. -/
  | keyIndexOutOfRange (v : Byte)
  deriving DecidableEq, Repr

/-- What the model gives no meaning. No instruction is refused. -/
inductive Refusal where
  /-- An instruction without a meaning yet, by its mnemonic: raised by an arm of `exec` alone. Safe. No arm raises it. -/
  | notModelled (mnemonic : String)
  /-- `set_key` called with k > 15, which the host is assumed never to do: raised by `command` (60_exceptions.md R226, D26).
  Safe: the spec gives the call no transition. -/
  | setKeyContract (k : Nat)
  deriving DecidableEq, Repr

/-- `Running` or `Faulted(f)` (10_state.md R32). -/
inductive Status where
  | running
  | faulted (f : Fault)
  deriving DecidableEq, Repr, Inhabited

/-- The sparse contents of `mem` (20_memory.md R50): cells with strictly rising addresses; an address that is not
listed reads as its reset contents (`Sys2Proof.Machine.initialByte`). -/
abbrev Memory := List Host.Cell

/-- The framebuffer: 32 rows of 64 cells, `true` is on; cell `fb[X, Y]` is column X of row Y (10_state.md R30). -/
abbrev Framebuffer := Vector (Vector Bool 64) 32

/-- The architectural state of 10_state.md R20, with one field of the model's own, `draws`. -/
structure State where
  /-- `mem` (20_memory.md R50) -/
  mem : Memory
  /-- V0–VF (10_state.md R21); V15 is the flag register VF (R22) -/
  v : Vector Byte 16
  /-- the index register I (R23) -/
  i : Word
  /-- the program counter (R24) -/
  pc : Word
  /-- the call stack slots (R25) -/
  stack : Vector Word 16
  /-- the stack pointer SP, an integer in 0..16 (R26) -/
  sp : Fin 17
  /-- the delay timer DT (R27) -/
  dt : Byte
  /-- the sound timer ST (R28) -/
  st : Byte
  /-- the keypad vector, `true` is pressed (R29) -/
  key : Vector Bool 16
  /-- the framebuffer (R30) -/
  fb : Framebuffer
  /-- the redraw flag (R31) -/
  redraw : Bool
  /-- the run status (R32) -/
  status : Status
  /-- THE MODEL'S OWN, not the spec's: how many free values have been drawn (log entries 2, 3 and 5) -/
  draws : Nat
  deriving DecidableEq, Repr, Inhabited

/-- The machine after `construct`, the reset table of 10_state.md R35: memory with nothing listed holds the font and
zeros. I, DT and ST are 0 by the spec's D8 (log entry 4), `draws` by the model's own choice (log entry 5). -/
def State.reset : State where
  mem := []
  v := Vector.replicate 16 0
  i := 0
  pc := 0x200
  stack := Vector.replicate 16 0
  sp := 0
  dt := 0
  st := 0
  key := Vector.replicate 16 false
  fb := Vector.replicate 32 (Vector.replicate 64 false)
  redraw := true
  status := .running
  draws := 0

/-- The outcome of one step. -/
abbrev Result := Host.Outcome State Fault Refusal

end Sys2Proof.Machine
end

