-- ==== Sys2Proof/Machine/Ops.lean ====
section
/-!
DEFINITION. The named operations over memory, registers, stack and program counter, taking a fault (60_exceptions.md
R217) and fetching an instruction (30_encoding.md R74). Meanings reach the state through these.
-/

namespace Sys2Proof.Machine

open Sys2Proof

/-! ### Memory (20_memory.md) -/

/-- What an address that memory does not list reads as: its reset contents, the font byte at 0x050–0x09F and 0 elsewhere
(10_state.md R35, 20_memory.md R53, R55, R62). -/
def initialByte (a : Nat) : Byte :=
  if a < Config.fontBase then 0 else Config.font.getD (a - Config.fontBase) 0

/-- The byte `mem[a]`. -/
def Memory.byteAt : Memory → Nat → Byte
  | [], a => initialByte a
  | (b, w) :: m, a => if a = b then w else Memory.byteAt m a

/-- Put the cell `(a, v)` in front of cells at higher addresses, unless it says what an unlisted address reads as. -/
def Memory.cons (a : Nat) (v : Byte) (m : Memory) : Memory :=
  if v = initialByte a then m else (a, v) :: m

/-- `mem[a] <- v`, keeping the canonical form: addresses strictly rising, no cell equal to its reset contents. -/
def Memory.write : Memory → Nat → Byte → Memory
  | [], a, v => Memory.cons a v []
  | (b, w) :: m, a, v =>
    if a < b then Memory.cons a v ((b, w) :: m)
    else if a = b then Memory.cons a v m
    else (b, w) :: Memory.write m a v

/-- The canonical form: addresses strictly rise, lie in 0x000–0xFFF, and no cell equals its reset contents. -/
abbrev Memory.wf (m : Memory) : Prop :=
  m.Pairwise (fun c d => c.1 < d.1) ∧ ∀ c ∈ m, c.1 < Config.memSize ∧ c.2 ≠ initialByte c.1

/-- The canonical memory that holds the in-range cells of a list, a later cell over an earlier one. -/
def Memory.ofCells (cells : List Host.Cell) : Memory :=
  cells.foldl (fun m c => if c.1 < Config.memSize then m.write c.1 c.2 else m) []

/-- `MemRead(addr, 1)` with its range check (20_memory.md R51). -/
def memRead (m : Memory) (addr : Nat) : Except Fault Byte :=
  if Config.memSize ≤ addr then .error (.memoryOutOfRange addr) else .ok (m.byteAt addr)

/-- `MemWrite(addr, 1, v)` with its range check (20_memory.md R52). A write to the reserved or font region takes effect
(R54; D3, log entry 8). -/
def memWrite (m : Memory) (addr : Nat) (v : Byte) : Except Fault Memory :=
  if Config.memSize ≤ addr then .error (.memoryOutOfRange addr) else .ok (m.write addr v)

/-- `k` byte reads from `addr` up, ascending, ending at the first out-of-range one (20_memory.md R58; D14, log entry 11). -/
def readBytes (m : Memory) (addr : Nat) : Nat → Except Fault (List Byte)
  | 0 => .ok []
  | k + 1 =>
    match memRead m addr with
    | .error f => .error f
    | .ok b =>
      match readBytes m (addr + 1) k with
      | .error f => .error f
      | .ok bs => .ok (b :: bs)

/-- Byte writes from `addr` up, ascending, ending at the first out-of-range one (20_memory.md R58; D14, log entry 11). -/
def writeBytes (m : Memory) (addr : Nat) : List Byte → Except Fault Memory
  | [] => .ok m
  | b :: bs =>
    match memWrite m addr b with
    | .error f => .error f
    | .ok m' => writeBytes m' (addr + 1) bs

/-! ### Registers (10_state.md) -/

/-- The number of VF, the flag register (10_state.md R22). -/
def vf : RegIndex := 15

/-- `V[x]` (10_state.md R21). -/
def State.getV (s : State) (x : RegIndex) : Byte := s.v[x]

/-- `V[x] <- b` (R21). -/
def State.setV (s : State) (x : RegIndex) (b : Byte) : State := { s with v := s.v.set x b }

/-- The whole register file. -/
def State.setRegs (s : State) (v : Vector Byte 16) : State := { s with v := v }

/-- `I <- w` (R23). -/
def State.setI (s : State) (w : Word) : State := { s with i := w }

/-- `pc <- w` (R24). -/
def State.setPc (s : State) (w : Word) : State := { s with pc := w }

/-- `DT <- b` (R27). -/
def State.setDt (s : State) (b : Byte) : State := { s with dt := b }

/-- `ST <- b` (R28). -/
def State.setSt (s : State) (b : Byte) : State := { s with st := b }

/-- `key[k] <- p` (R29). -/
def State.setKeyAt (s : State) (k : Fin 16) (p : Bool) : State := { s with key := s.key.set k p }

/-- The framebuffer (R30). -/
def State.setFb (s : State) (fb : Framebuffer) : State := { s with fb := fb }

/-- `redraw <- b` (R31). -/
def State.setRedraw (s : State) (b : Bool) : State := { s with redraw := b }

/-- The memory (20_memory.md R50). -/
def State.setMem (s : State) (m : Memory) : State := { s with mem := m }

/-- One more free value has been drawn (log entry 5). -/
def State.drawn (s : State) : State := { s with draws := s.draws + 1 }

/-- The advance `pc <- (pc + 2) mod 65536` of the step cycle (30_encoding.md R74) and of a taken skip (40_control_flow.md
R108); 16-bit addition wraps (D7, log entry 10). -/
def State.advance (s : State) : State := s.setPc (s.pc + 2)

/-- A conditional skip: one further advance when the condition holds (40_control_flow.md R108, R110). -/
def State.skipIf (s : State) (c : Bool) : State := if c then s.advance else s

/-- `stack[SP] <- w; SP <- SP + 1` when SP < 16 (40_control_flow.md R102). -/
def State.push (s : State) (w : Word) (h : s.sp.val < 16) : State :=
  { s with stack := s.stack.set s.sp.val w, sp := ⟨s.sp.val + 1, by omega⟩ }

/-- `SP <- SP - 1` when SP > 0; the slot keeps its value (40_control_flow.md R100, 10_state.md R25). -/
def State.pop (s : State) (_ : 0 < s.sp.val) : State := { s with sp := ⟨s.sp.val - 1, by omega⟩ }

/-- The slot a pop reads, `stack[SP - 1]` (40_control_flow.md R100). -/
def State.top (s : State) (_ : 0 < s.sp.val) : Word := s.stack[s.sp.val - 1]

/-! ### Faults (60_exceptions.md R217) -/

/-- Fault entry: `status <- Faulted(f)`, and every other piece of state is a free value, memory in its canonical form
(60_exceptions.md R217, D12; log entries 1 and 2). -/
def State.takeFault (s : State) (f : Fault) : State :=
  { Config.afterFault s.draws s with
    mem := Memory.ofCells (Config.afterFault s.draws s).mem
    status := .faulted f
    draws := s.draws + 1 }

/-- `raise f`: the command ends in a faulted machine (60_exceptions.md R217, R220). There is no return (R219). -/
def raise (f : Fault) (s : State) : Result := .next (s.takeFault f)

/-- The end of an instruction whose memory accesses may raise: its next state, or the fault. -/
def finish (s : State) : Except Fault State → Result
  | .ok t => .next t
  | .error f => raise f s

/-- The numeric code of a fault (60_exceptions.md R210; D13, log entry 15). -/
def Fault.code : Fault → Nat
  | .unknownOpcode _ => 1
  | .stackOverflow => 2
  | .stackUnderflow => 3
  | .memoryOutOfRange _ => 4
  | .keyIndexOutOfRange _ => 5

/-! ### Fetch (30_encoding.md R74) -/

/-- The word at pc, high byte first, from any pc, even or odd (30_encoding.md R74, 20_memory.md R56, R57; D6, log entry 9).
The byte at pc is read before the byte at pc + 1 (60_exceptions.md R220), and `pc + 1` is not reduced (20_memory.md R60). -/
def fetchBytes (s : State) : Except Fault (Byte × Byte) :=
  match memRead s.mem s.pc.toNat with
  | .error f => .error f
  | .ok hi =>
    match memRead s.mem (s.pc.toNat + 1) with
    | .error f => .error f
    | .ok lo => .ok (hi, lo)

/-- Fetch and decode: the instruction at pc, or the fault, in the order of 60_exceptions.md R220. -/
def fetchInstr (s : State) : Except Fault Instr :=
  match fetchBytes s with
  | .error f => .error f
  | .ok (hi, lo) =>
    match decode hi lo with
    | .ok i => .ok i
    | .error (.unknownOpcode op) => .error (.unknownOpcode op)

/-- Store an opcode word at pc and pc + 1, high byte first; nothing is stored outside memory. -/
def State.placeWord (s : State) (op : Word) : State :=
  match writeBytes s.mem s.pc.toNat [hiByte op, loByte op] with
  | .ok m => s.setMem m
  | .error _ => s

end Sys2Proof.Machine
end

