-- ==== Sys2Proof/Machine/Operands.lean ====
section
/-!
DEFINITION. The operand forms: immediates (30_encoding.md R73), effective addresses (20_memory.md R60, 42_index_memory.md
R156), jump targets (40_control_flow.md R107, R109), glyph addresses, BCD digits, register ranges and keypad indices.
-/

namespace Sys2Proof.Machine

open Sys2Proof

/-- `nnn` as an address or jump target: zero-extended to 16 bits (30_encoding.md R73). -/
def immTarget (nnn : BitVec 12) : Word := nnn.setWidth 16

/-- The target of `Bnnn`, `(nnn + V[0]) mod 65536` (40_control_flow.md R107). Targets are not checked (R109; D30, log
entry 27). -/
def indexedTarget (s : State) (nnn : BitVec 12) : Word := immTarget nnn + (s.getV 0).setWidth 16

/-- The effective address `I + k`, an unbounded natural number (20_memory.md R60, 42_index_memory.md R156; D2, log entry 11). -/
def dataAddr (s : State) (k : Nat) : Nat := s.i.toNat + k

/-- The address of the glyph selected by the low nibble of a byte: `FONT_BASE + 5 * (b & 0xF)` (42_index_memory.md R152). -/
def glyphAddr (b : Byte) : Word := BitVec.ofNat 16 (Config.fontBase + Config.glyphBytes * (b &&& 0x0F).toNat)

/-- Hundreds, tens and ones of a byte (42_index_memory.md R153). -/
def bcdDigits (b : Byte) : List Byte := [b / 100, b / 10 % 10, b % 10]

/-- V0 to Vx, in order (42_index_memory.md R154). -/
def regsThrough (s : State) (x : RegIndex) : List Byte := s.v.toList.take (x.val + 1)

/-- Load bytes into consecutive registers from number `k` up, ascending (42_index_memory.md R155). -/
def loadFrom (k : Nat) : List Byte → Vector Byte 16 → Vector Byte 16
  | [], v => v
  | b :: bs, v => loadFrom (k + 1) bs (v.setIfInBounds k b)

/-- `KeyAt(v)` with its index check (44_timers_keypad.md R196; D11, log entry 14). -/
def keyAt (s : State) (v : Byte) : Except Fault Bool :=
  if h : v.toNat < 16 then .ok s.key[v.toNat] else .error (.keyIndexOutOfRange v)

/-- `lowest_pressed()`: the smallest pressed key number, or none (44_timers_keypad.md R193). -/
def lowestPressed (s : State) : Option (Fin 16) := (List.finRange 16).find? (fun k => s.key[k])

end Sys2Proof.Machine
end

