-- ==== Sys2Proof/Machine/Flags.lean ====
section
/-!
DEFINITION. Every flag computation of the block; VF is its only flag register (10_state.md R22) and a flag is the byte
1 or 0. The flag functions are of the operand values read before any write (41_alu.md R133).
-/

namespace Sys2Proof.Machine

open Sys2Proof

/-- A flag as the byte written to VF. -/
def flagByte (c : Bool) : Byte := if c then 1 else 0

/-- Carry of `a + b`: the sum exceeds 255 (41_alu.md R126). -/
def carry (a b : Byte) : Bool := decide (255 < a.toNat + b.toNat)

/-- No borrow of `a - b`: `a ≥ b` (41_alu.md R127, R129). -/
def noBorrow (a b : Byte) : Bool := decide (b.toNat ≤ a.toNat)

/-- The bit a right shift puts out, bit 0 (41_alu.md R128). -/
def bitOutRight (a : Byte) : Bool := a.getLsbD 0

/-- The bit a left shift puts out, bit 7 (41_alu.md R130). -/
def bitOutLeft (a : Byte) : Bool := a.getLsbD 7

/-- `V[F] <- (c ? 1 : 0)` (10_state.md R22). -/
def State.setFlag (s : State) (c : Bool) : State := s.setV vf (flagByte c)

end Sys2Proof.Machine
end

