-- ==== Sys2Proof/Machine/Alu.lean ====
section
/-!
DEFINITION. Register loads, arithmetic, logic, shifts and random (41_alu.md). None raises a fault and none changes pc
further. Writes happen in the order of R133: result then flag for 8xy4, 8xy5, 8xy7; flag then result for 8xy6, 8xyE
(D20, D21; log entry 19).
-/

namespace Sys2Proof.Machine

open Sys2Proof

/-- 6xkk: `V[x] <- kk` (41_alu.md R120). -/
def execLdImm (x : RegIndex) (kk : Byte) (s : State) : Result := .next (s.setV x kk)

/-- 7xkk: `V[x] <- (V[x] + kk) mod 256`, no flag (41_alu.md R121). -/
def execAddImm (x : RegIndex) (kk : Byte) (s : State) : Result := .next (s.setV x (s.getV x + kk))

/-- 8xy0: `V[x] <- V[y]` (41_alu.md R122). -/
def execLdReg (x y : RegIndex) (s : State) : Result := .next (s.setV x (s.getV y))

/-- 8xy1: `V[x] <- V[x] | V[y]` (41_alu.md R123). -/
def execOrReg (x y : RegIndex) (s : State) : Result := .next (s.setV x (s.getV x ||| s.getV y))

/-- 8xy2: `V[x] <- V[x] & V[y]` (41_alu.md R124). -/
def execAndReg (x y : RegIndex) (s : State) : Result := .next (s.setV x (s.getV x &&& s.getV y))

/-- 8xy3: `V[x] <- V[x] ^ V[y]` (41_alu.md R125). -/
def execXorReg (x y : RegIndex) (s : State) : Result := .next (s.setV x (s.getV x ^^^ s.getV y))

/-- 8xy4: the sum mod 256 to Vx, then the carry to VF (41_alu.md R126). -/
def execAddReg (x y : RegIndex) (s : State) : Result :=
  .next ((s.setV x (s.getV x + s.getV y)).setFlag (carry (s.getV x) (s.getV y)))

/-- 8xy5: Vx − Vy mod 256 to Vx, then no-borrow to VF (41_alu.md R127). -/
def execSubReg (x y : RegIndex) (s : State) : Result :=
  .next ((s.setV x (s.getV x - s.getV y)).setFlag (noBorrow (s.getV x) (s.getV y)))

/-- The state after `8xy6` and `8xyE` wrote VF. -/
def shiftFlagged (s : State) (c : Bool) : State := s.setFlag c

/-- 8xy6: bit 0 of Vx to VF, then Vx, read after that write, shifted right; Vy is ignored (41_alu.md R128; D29, log entry 26). -/
def execShr (x _y : RegIndex) (s : State) : Result :=
  .next ((shiftFlagged s (bitOutRight (s.getV x))).setV x ((shiftFlagged s (bitOutRight (s.getV x))).getV x >>> 1))

/-- 8xy7: Vy − Vx mod 256 to Vx, then no-borrow to VF (41_alu.md R129). -/
def execSubnReg (x y : RegIndex) (s : State) : Result :=
  .next ((s.setV x (s.getV y - s.getV x)).setFlag (noBorrow (s.getV y) (s.getV x)))

/-- 8xyE: bit 7 of Vx to VF, then Vx, read after that write, shifted left mod 256; Vy is ignored (41_alu.md R130; D29, log
entry 26). -/
def execShl (x _y : RegIndex) (s : State) : Result :=
  .next ((shiftFlagged s (bitOutLeft (s.getV x))).setV x ((shiftFlagged s (bitOutLeft (s.getV x))).getV x <<< 1))

/-- Cxkk: one byte of the RNG input AND kk to Vx; the byte is drawn even when kk = 0 (41_alu.md R131; D18, log entry 3). -/
def execRnd (x : RegIndex) (kk : Byte) (s : State) : Result :=
  .next ((s.setV x (Config.randomByte s.draws &&& kk)).drawn)

end Sys2Proof.Machine
end

