-- ==== Sys2Proof/Machine/ControlFlow.lean ====
section
/-!
DEFINITION. Control transfer and the register and immediate skips (40_control_flow.md). Each meaning runs after the
fetch and the advance, so pc already holds the instruction's address + 2 (30_encoding.md R74).
-/

namespace Sys2Proof.Machine

open Sys2Proof

/-- 00EE: pop the return address into pc, or StackUnderflow when SP = 0 (40_control_flow.md R100). -/
def execRet (s : State) : Result :=
  if h : 0 < s.sp.val then .next ((s.pop h).setPc (s.top h)) else raise .stackUnderflow s

/-- 1nnn: `pc <- nnn` (40_control_flow.md R101). -/
def execJp (nnn : BitVec 12) (s : State) : Result := .next (s.setPc (immTarget nnn))

/-- 2nnn: push the advanced pc and jump, or StackOverflow when SP = 16 (40_control_flow.md R102, C4). -/
def execCall (nnn : BitVec 12) (s : State) : Result :=
  if h : s.sp.val < 16 then .next ((s.push s.pc h).setPc (immTarget nnn)) else raise .stackOverflow s

/-- 3xkk: skip if Vx = kk (40_control_flow.md R103). -/
def execSeImm (x : RegIndex) (kk : Byte) (s : State) : Result := .next (s.skipIf (s.getV x == kk))

/-- 4xkk: skip if Vx ≠ kk (40_control_flow.md R104). -/
def execSneImm (x : RegIndex) (kk : Byte) (s : State) : Result := .next (s.skipIf (s.getV x != kk))

/-- 5xy0: skip if Vx = Vy (40_control_flow.md R105). -/
def execSeReg (x y : RegIndex) (s : State) : Result := .next (s.skipIf (s.getV x == s.getV y))

/-- 9xy0: skip if Vx ≠ Vy (40_control_flow.md R106). -/
def execSneReg (x y : RegIndex) (s : State) : Result := .next (s.skipIf (s.getV x != s.getV y))

/-- Bnnn: `pc <- (nnn + V[0]) mod 65536` (40_control_flow.md R107). -/
def execJpV0 (nnn : BitVec 12) (s : State) : Result := .next (s.setPc (indexedTarget s nnn))

end Sys2Proof.Machine
end

