-- ==== Sys2Proof/Machine/Display.lean ====
section
/-!
DEFINITION. The framebuffer controller (43_display.md): clearing, and drawing a sprite by XOR with collision detection
and toroidal wrap.
-/

namespace Sys2Proof.Machine

open Sys2Proof

/-- The cell `fb[X, Y]` (10_state.md R30). -/
def Framebuffer.cell (fb : Framebuffer) (X : Fin 64) (Y : Fin 32) : Bool := fb[Y][X]

/-- `fb[X, Y] <- not fb[X, Y]`. -/
def Framebuffer.flip (fb : Framebuffer) (X : Fin 64) (Y : Fin 32) : Framebuffer :=
  fb.set Y (fb[Y].set X (!fb[Y][X]))

/-- All cells off (43_display.md R170). -/
def Framebuffer.clear : Framebuffer := Vector.replicate 32 (Vector.replicate 64 false)

/-- A column, reduced mod 64 (43_display.md R172; D23, log entry 21). -/
def column (k : Nat) : Fin 64 := ⟨k % 64, Nat.mod_lt k (by decide)⟩

/-- A row, reduced mod 32 (43_display.md R172). -/
def row (k : Nat) : Fin 32 := ⟨k % 32, Nat.mod_lt k (by decide)⟩

/-- Bit `7 - c` of a sprite byte, the pixel in its column `c`; bit 7 is leftmost (43_display.md R171). -/
def spriteBit (b : Byte) (c : Nat) : Bool := b.getLsbD (7 - c)

/-- What a draw in progress holds: the cells, `collision` and `changed` (43_display.md R171). -/
structure Canvas where
  fb : Framebuffer
  collision : Bool
  changed : Bool
  deriving DecidableEq, Repr

/-- Plot one 1-bit of a sprite: record a collision if the cell was on, and flip it (43_display.md R171, R173). -/
def plot (X : Fin 64) (Y : Fin 32) (cv : Canvas) : Canvas :=
  { fb := cv.fb.flip X Y, collision := cv.collision || cv.fb.cell X Y, changed := true }

/-- Columns `c, c + 1, …` of one sprite row, as many as `k`, at anchor column `x0` on row `Y`. -/
def drawCols (x0 : Nat) (Y : Fin 32) (b : Byte) (c : Nat) : Nat → Canvas → Canvas
  | 0, cv => cv
  | k + 1, cv => drawCols x0 Y b (c + 1) k (if spriteBit b c then plot (column (x0 + c)) Y cv else cv)

/-- The rows of a sprite from its row `r` down, at anchor `(x0, y0)` (43_display.md R171). -/
def drawRows (x0 y0 : Nat) (r : Nat) : List Byte → Canvas → Canvas
  | [], cv => cv
  | b :: bs, cv => drawRows x0 y0 (r + 1) bs (drawCols x0 (row (y0 + r)) b 0 8 cv)

/-- The whole sprite, drawn on the framebuffer at `(Vx mod 64, Vy mod 32)` (43_display.md R171). -/
def drawSprite (vx vy : Byte) (rows : List Byte) (fb : Framebuffer) : Canvas :=
  drawRows (vx.toNat % 64) (vy.toNat % 32) 0 rows { fb := fb, collision := false, changed := false }

/-- The end of a draw: the cells, `redraw` set if a cell changed, and VF written last (43_display.md R171; D22, log entry 20). -/
def State.commitDraw (s : State) (cv : Canvas) : State :=
  ((s.setFb cv.fb).setRedraw (s.redraw || cv.changed)).setFlag cv.collision

/-- 00E0: every cell off, redraw set (43_display.md R170). -/
def execCls (s : State) : Result := .next ((s.setFb Framebuffer.clear).setRedraw true)

/-- Dxyn: draw the `n` rows at mem[I..I+n−1]; the anchor is read before VF is written. Reading all rows before the first
plot differs from R171's interleaving only in a faulting step, whose state is unspecified (60_exceptions.md R217). -/
def execDrw (x y : RegIndex) (n : Nat) (s : State) : Result :=
  match readBytes s.mem (dataAddr s 0) n with
  | .ok rows => .next (s.commitDraw (drawSprite (s.getV x) (s.getV y) rows s.fb))
  | .error f => raise f s

end Sys2Proof.Machine
end

