-- ==== Sys2Proof/Machine/IndexMemory.lean ====
section
/-!
DEFINITION. The index register and memory transfers (42_index_memory.md). None changes pc further, and none changes I
as a side effect of an access (R156; D9, log entry 12).
-/

namespace Sys2Proof.Machine

open Sys2Proof

/-- Annn: `I <- nnn` (42_index_memory.md R150). -/
def execLdI (nnn : BitVec 12) (s : State) : Result := .next (s.setI (immTarget nnn))

/-- Fx1E: `I <- (I + V[x]) mod 65536`, no flag (42_index_memory.md R151). -/
def execAddI (x : RegIndex) (s : State) : Result := .next (s.setI (s.i + (s.getV x).setWidth 16))

/-- Fx29: I points at the glyph of the low nibble of Vx (42_index_memory.md R152). -/
def execLdF (x : RegIndex) (s : State) : Result := .next (s.setI (glyphAddr (s.getV x)))

/-- Store bytes from I up, or raise MemoryOutOfRange (20_memory.md R58, R60; 60_exceptions.md R214). -/
def storeAtI (s : State) (bs : List Byte) : Except Fault State :=
  match writeBytes s.mem (dataAddr s 0) bs with
  | .ok m => .ok (s.setMem m)
  | .error f => .error f

/-- Fx33: the three decimal digits of Vx to mem[I..I+2] (42_index_memory.md R153). -/
def execLdB (x : RegIndex) (s : State) : Result := finish s (storeAtI s (bcdDigits (s.getV x)))

/-- Fx55: V0..Vx to mem[I..I+x] (42_index_memory.md R154). -/
def execStoreRegs (x : RegIndex) (s : State) : Result := finish s (storeAtI s (regsThrough s x))

/-- Read mem[I..I+x] into V0..Vx, or raise MemoryOutOfRange (42_index_memory.md R155). -/
def loadAtI (s : State) (x : RegIndex) : Except Fault State :=
  match readBytes s.mem (dataAddr s 0) (x.val + 1) with
  | .ok bs => .ok (s.setRegs (loadFrom 0 bs s.v))
  | .error f => .error f

/-- Fx65: mem[I..I+x] to V0..Vx (42_index_memory.md R155). -/
def execLoadRegs (x : RegIndex) (s : State) : Result := finish s (loadAtI s x)

end Sys2Proof.Machine
end

