-- ==== Sys2Proof/Machine/TimersKeypad.lean ====
section
/-!
DEFINITION. The keypad and timer instructions (44_timers_keypad.md). The host commands that tick the timers and set keys
are in Machine/Commands.lean.
-/

namespace Sys2Proof.Machine

open Sys2Proof

/-- A key skip: the key numbered by a byte is looked up and compared with the wanted state (44_timers_keypad.md R190, R191). -/
def skipOnKey (s : State) (v : Byte) (wanted : Bool) : Except Fault State :=
  match keyAt s v with
  | .ok p => .ok (s.skipIf (p == wanted))
  | .error f => .error f

/-- Ex9E: skip if key Vx is pressed (44_timers_keypad.md R190). -/
def execSkp (x : RegIndex) (s : State) : Result := finish s (skipOnKey s (s.getV x) true)

/-- ExA1: skip if key Vx is not pressed (44_timers_keypad.md R191). -/
def execSknp (x : RegIndex) (s : State) : Result := finish s (skipOnKey s (s.getV x) false)

/-- Fx07: `V[x] <- DT` (44_timers_keypad.md R192). -/
def execLdVxDt (x : RegIndex) (s : State) : Result := .next (s.setV x s.dt)

/-- Fx0A: the lowest pressed key to Vx; with none pressed, pc is rewound by 2 so that the instruction runs again
(44_timers_keypad.md R193; D24, log entry 22). -/
def execLdVxK (x : RegIndex) (s : State) : Result :=
  match lowestPressed s with
  | some k => .next (s.setV x (BitVec.ofNat 8 k.val))
  | none => .next (s.setPc (s.pc - 2))

/-- Fx15: `DT <- V[x]` (44_timers_keypad.md R194). -/
def execLdDtVx (x : RegIndex) (s : State) : Result := .next (s.setDt (s.getV x))

/-- Fx18: `ST <- V[x]` (44_timers_keypad.md R195). -/
def execLdStVx (x : RegIndex) (s : State) : Result := .next (s.setSt (s.getV x))

end Sys2Proof.Machine
end

