-- ==== Sys2Proof/Machine/Step.lean ====
section
/-!
DEFINITION. The `step` command: fetch, advance, decode, execute (30_encoding.md R74), and `withFetchWord`, which places an
instruction where the next step fetches.
-/

namespace Sys2Proof.Machine

open Sys2Proof

/-- One `step` (30_encoding.md R74). A fault of fetch or decode is raised like an instruction's own (60_exceptions.md R217,
R220); a faulted machine has no transition and keeps its fault (R218). -/
def step (s : State) : Host.Outcome State Fault Refusal :=
  match s.status with
  | .faulted f => .fault f
  | .running =>
    match fetchInstr s with
    | .error f => raise f s
    | .ok i => exec i s.advance

/-- `s` with the instruction word `w` of `nbits` bits stored at pc and pc + 1, high byte first (log entry 28). -/
def State.withFetchWord (s : State) (nbits w : Nat) : State := s.placeWord (tableWord nbits w)

end Sys2Proof.Machine
end

