-- ==== Sys2Proof/Machine/Commands.lean ====
section
/-!
DEFINITION. The host interface (60_exceptions.md R230): every command of the block and its result, one arm per command
(00_scope.md R5), and runs of commands in any order the host chooses (70_reset_and_hazards.md R260).
-/

namespace Sys2Proof.Machine

open Sys2Proof

/-- A host command (60_exceptions.md R230). -/
inductive Command where
  /-- `construct()` (70_reset_and_hazards.md R250) -/
  | construct
  /-- `load(bytes)` (70_reset_and_hazards.md R252) -/
  | load (image : List Byte)
  /-- `step()` (30_encoding.md R74) -/
  | step
  /-- `tick_timers()` (60_exceptions.md R224) -/
  | tickTimers
  /-- `set_key(k, pressed)` (60_exceptions.md R226) -/
  | setKey (k : Nat) (pressed : Bool)
  /-- `consume_redraw()` (60_exceptions.md R228) -/
  | consumeRedraw
  /-- the accessor `video()` (60_exceptions.md R227) -/
  | video
  /-- the accessor `redraw()` (R227) -/
  | redraw
  /-- the accessor `sound()` (R227) -/
  | sound
  deriving DecidableEq, Repr

/-- What a command returns to the host (60_exceptions.md R230). -/
inductive Reply where
  /-- the command completed -/
  | ok
  /-- the typed failure of a step that raised a fault (60_exceptions.md R217, 10_state.md R32) -/
  | failed (f : Fault)
  /-- `ImageTooLarge(len)`, code 6 (60_exceptions.md R210, R216) -/
  | imageTooLarge (len : Nat)
  /-- the framebuffer, row-major, cell `fb[X, Y]` at index `Y*64 + X` (43_display.md R174) -/
  | cells (fb : Vector Bool (32 * 64))
  /-- the redraw flag -/
  | flag (b : Bool)
  /-- the sound timer value -/
  | level (b : Byte)
  deriving DecidableEq, Repr

/-- The outcome of a command: the machine after it and the result, or why there is no transition. -/
abbrev Reaction := Host.Outcome (State × Reply) Fault Refusal

/-- `construct()`: a fresh machine in the reset state, whatever stood before (70_reset_and_hazards.md R250). Only the
model's draw counter goes on, so that a new machine draws new free values (log entry 29). -/
def construct (s : State) : State := { State.reset with draws := s.draws }

/-- The number the spec gives the load rejection (60_exceptions.md R210; D13, log entry 15). -/
def imageTooLargeCode : Nat := 6

/-- Copy an image to 0x200 up, ascending (70_reset_and_hazards.md R252, 20_memory.md R58). -/
def copyImage (a : Nat) : List Byte → Memory → Memory
  | [], m => m
  | b :: bs, m => copyImage (a + 1) bs (m.write a b)

/-- `load(bytes)`: reject an image over 3584 bytes and write nothing, else copy it (70_reset_and_hazards.md R252–R254;
D15, D16, log entry 16). -/
def load (image : List Byte) (s : State) : State × Reply :=
  if Config.maxImage < image.length then (s, .imageTooLarge image.length)
  else (s.setMem (copyImage Config.programBase image s.mem), .ok)

/-- A timer counts down by one, "saturating at 0" (10_state.md R27, R28; 60_exceptions.md R224). -/
def countDown (t : Byte) : Byte := if t = 0 then 0 else t - 1

/-- `tick_timers()` (60_exceptions.md R224). -/
def tickTimers (s : State) : State := (s.setDt (countDown s.dt)).setSt (countDown s.st)

/-- `set_key(k, pressed)`; a k above 15 breaks the caller's contract and has no transition (60_exceptions.md R226; D26, log
entry 24). -/
def setKey (k : Nat) (pressed : Bool) (s : State) : Reaction :=
  if h : k < 16 then .next (s.setKeyAt ⟨k, h⟩ pressed, .ok) else .refused (.setKeyContract k)

/-- `consume_redraw()` (60_exceptions.md R228; D17, log entry 17). -/
def consumeRedraw (s : State) : State := s.setRedraw false

/-- The `step` command with its result: ok, or the fault the step raised (60_exceptions.md R217, R230). -/
def stepCommand (s : State) : Reaction :=
  match step s with
  | .next t => .next (t, match t.status with
    | .running => .ok
    | .faulted f => .failed f)
  | .fault f => .fault f
  | .refused r => .refused r

/-- A command that needs `status = Running`; on a faulted machine it has no transition (60_exceptions.md R218). -/
def whenRunning (s : State) (r : Reaction) : Reaction :=
  match s.status with
  | .running => r
  | .faulted f => .fault f

/-- `video()`: the framebuffer, row-major (43_display.md R174, 60_exceptions.md R227). -/
def videoCells (s : State) : Vector Bool (32 * 64) := s.fb.flatten

/-- One command (60_exceptions.md R230). `construct` and the accessors have no precondition; on a faulted machine an
accessor reads the unspecified value the fault left (R227, U2; log entry 25). -/
def command (c : Command) (s : State) : Reaction :=
  match c with
  | .construct => .next (construct s, .ok)
  | .load image => whenRunning s (.next (load image s))
  | .step => stepCommand s
  | .tickTimers => whenRunning s (.next (tickTimers s, .ok))
  | .setKey k pressed => whenRunning s (setKey k pressed s)
  | .consumeRedraw => whenRunning s (.next (consumeRedraw s, .ok))
  | .video => .next (s, .cells (videoCells s))
  | .redraw => .next (s, .flag s.redraw)
  | .sound => .next (s, .level s.st)

/-- Commands issued one after another, each run to completion, up to the first that has no transition (00_scope.md R5,
60_exceptions.md R230). -/
def runCommands : List Command → State → Host.Outcome State Fault Refusal
  | [], s => .next s
  | c :: cs, s =>
    match command c s with
    | .next (t, _) => runCommands cs t
    | .fault f => .fault f
    | .refused r => .refused r

end Sys2Proof.Machine
end

