-- ==== Sys2Proof/Safety.lean ====
section
/-!
DEFINITION. The terms claims are stated in: what a run that never faults is (70_reset_and_hazards.md R259), what finishing
is (R261), host schedules and fairness (R260), frames (30_encoding.md R78) and the invariants of the machine.
-/

namespace Sys2Proof.Machine

open Sys2Proof

/-- The parts of State a frame speaks of: one for each field. -/
inductive Part where
  | mem | v | i | pc | stack | sp | dt | st | key | fb | redraw | status | draws
  deriving DecidableEq, Repr

/-- A part has the same value in both states; memory means every byte of it. -/
def Part.Same (s t : State) : Part → Prop
  | .mem => t.mem = s.mem ∧ ∀ a, t.mem.byteAt a = s.mem.byteAt a
  | .v => t.v = s.v
  | .i => t.i = s.i
  | .pc => t.pc = s.pc
  | .stack => t.stack = s.stack
  | .sp => t.sp = s.sp
  | .dt => t.dt = s.dt
  | .st => t.st = s.st
  | .key => t.key = s.key
  | .fb => t.fb = s.fb
  | .redraw => t.redraw = s.redraw
  | .status => t.status = s.status
  | .draws => t.draws = s.draws

/-- The frame: every part but the listed ones is unchanged (30_encoding.md R78). -/
def OnlyChanges (ps : List Part) (s t : State) : Prop := ∀ p : Part, p ∉ ps → p.Same s t

/-- Every register but the listed ones is unchanged. -/
def OnlyRegs (xs : List RegIndex) (s t : State) : Prop := ∀ j : RegIndex, j ∉ xs → t.v[j] = s.v[j]

/-- The step did not raise a fault: the machine is still running (60_exceptions.md R217). -/
def State.Running (s : State) : Prop := s.status = .running

/-- A pc no reachable running machine exceeds (10_state.md R34). -/
def maxPc : Nat := 0x10FE

/-- The pc bound of 10_state.md R34 with what carries it through `00EE`: a running machine's pc is at most 0x10FE and
every occupied stack slot holds a call's address + 2, at most 0x1000. -/
def State.PcBounded (s : State) : Prop :=
  s.status = .running → s.pc.toNat ≤ maxPc ∧ ∀ j : Fin 16, j.val < s.sp.val → s.stack[j].toNat ≤ 0x1000

/-- The machine never faults in `k` steps: a conforming run (70_reset_and_hazards.md R259). -/
def State.ConformsFor : Nat → State → Prop
  | 0, s => s.Running
  | k + 1, s => s.Running ∧ ∃ t, step s = .next t ∧ State.ConformsFor k t

/-- "Finished at address H": Running, pc = H, and the word at H is `1nnn` with nnn = H (70_reset_and_hazards.md R261; D25,
log entry 23). -/
def State.FinishedAt (s : State) (h : Word) : Prop :=
  s.status = .running ∧ s.pc = h ∧ ∃ nnn : BitVec 12, immTarget nnn = h ∧ fetchInstr s = .ok (.jp nnn)

/-- The commands of a host that ticks the timers after every `stepsPerTick` steps, for `ticks` ticks. STEPS_PER_TICK is OPEN
(00_scope.md R4, 60_exceptions.md R225; D19, log entry 18), so it is an argument. -/
def pacedSchedule (stepsPerTick : Nat) : Nat → List Command
  | 0 => []
  | ticks + 1 => List.replicate stepsPerTick .step ++ .tickTimers :: pacedSchedule stepsPerTick ticks

/-- An endless schedule of commands, and the fairness premise of 70_reset_and_hazards.md R260: it ticks the timers infinitely
often. -/
def Schedule.TicksForever (schedule : Nat → Command) : Prop := ∀ n, ∃ k, n ≤ k ∧ schedule k = .tickTimers

/-- The word `tttt nnnn nnnn nnnn`, as a number (30_encoding.md R72). -/
def wordNNN (t nnn : Nat) : Word := BitVec.ofNat 16 (t * 4096 + nnn)

/-- The word `tttt xxxx kkkk kkkk`, as a number (30_encoding.md R72). -/
def wordXKK (t x kk : Nat) : Word := BitVec.ofNat 16 (t * 4096 + x * 256 + kk)

/-- The word `tttt xxxx yyyy nnnn`, as a number (30_encoding.md R72). -/
def wordXYN (t x y n : Nat) : Word := BitVec.ofNat 16 (t * 4096 + x * 256 + y * 16 + n)

/-- The machine took fault f: the step ended, and all that is known of the next state is its status (60_exceptions.md R217). -/
def Raises (r : Result) (f : Fault) : Prop := ∃ t, r = .next t ∧ t.status = .faulted f

/-- The one fault of its own that an instruction raises in a state, if any: the list of 60_exceptions.md R220 with the
conditions and recorded values of R212–R215. -/
def ownFault (i : Instr) (s : State) : Option Fault :=
  let base := s.i.toNat
  match i with
  | .ret => if s.sp.val = 0 then some .stackUnderflow else none
  | .call _ => if s.sp.val = 16 then some .stackOverflow else none
  | .drw _ _ n => if 1 ≤ n ∧ 0x1000 ≤ base + n - 1 then some (.memoryOutOfRange (max base 0x1000)) else none
  | .ldB _ => if 0x1000 ≤ base + 2 then some (.memoryOutOfRange (max base 0x1000)) else none
  | .storeRegs x | .loadRegs x =>
    if 0x1000 ≤ base + x.val then some (.memoryOutOfRange (max base 0x1000)) else none
  | .skp x | .sknp x => if 15 < s.v[x].toNat then some (.keyIndexOutOfRange s.v[x]) else none
  | _ => none

/-- The status after an instruction whose own fault is `f`, in a machine that was running. -/
def statusAfter : Option Fault → Status
  | none => .running
  | some f => .faulted f

/-- `Dxyn` in state `s` plots a 1-bit on cell (X, Y): some sprite row r and column c with bit 7 − c of mem[I + r] set
land there, each coordinate reduced on its own (43_display.md R171, R172). -/
def Plots (s : State) (x y : RegIndex) (n : Nat) (X : Fin 64) (Y : Fin 32) : Prop :=
  ∃ r c, r < n ∧ c < 8 ∧ (s.mem.byteAt (s.i.toNat + r)).getLsbD (7 - c) = true ∧
    (s.v[x].toNat + c) % 64 = X.val ∧ (s.v[y].toNat + r) % 32 = Y.val

/-- Every later fetch sees what was stored: in `t`, a fetch at any pc whose two bytes lie in memory reads the byte `stored`
gives for an address, and the byte `s` held where it gives none (20_memory.md R64). -/
def FetchSees (stored : Nat → Option Byte) (s t : State) : Prop :=
  ∀ p : Word, p.toNat + 1 < 4096 → fetchBytes { t with pc := p } =
    .ok ((stored p.toNat).getD (s.mem.byteAt p.toNat), (stored (p.toNat + 1)).getD (s.mem.byteAt (p.toNat + 1)))

/-- Two states a program cannot tell apart: they differ at most in ST, in `redraw` and in stack slots at index ≥ SP
(10_state.md R36). -/
def SameVisible (s t : State) : Prop :=
  t.mem = s.mem ∧ t.v = s.v ∧ t.i = s.i ∧ t.pc = s.pc ∧ t.sp = s.sp ∧ t.dt = s.dt ∧ t.key = s.key ∧ t.fb = s.fb ∧
    t.status = s.status ∧ t.draws = s.draws ∧ ∀ j : Fin 16, j.val < s.sp.val → t.stack[j] = s.stack[j]

end Sys2Proof.Machine
end

