-- ==== Sys2Proof/Certificates/Slice0/Obligations.lean ====
section
/-!
DEFINITION. The statements for the provers, from the numbered rules of spec/. `exec i s` runs on a state whose pc is
already advanced, so `s.pc` there is the instruction's address + 2 (30_encoding.md R74).
-/

open Sys2Proof Sys2Proof.Machine

/-! ### Encoding (30_encoding.md) -/

/-- Decoding the bytes of an encoded well-formed instruction gives it back (30_encoding.md R70–R75). -/
def Obligations.DecodeAfterEncode : Prop :=
  ∀ i : Instr, wellFormed i = true → decode (hiByte (encode i)) (loByte (encode i)) = .ok i

/-- Every legal pair of bytes has one meaning: the decoded instruction is well-formed and encodes to those bytes
(30_encoding.md R75, R77). -/
def Obligations.EncodeAfterDecode : Prop :=
  ∀ (hi lo : Byte) (i : Instr), decode hi lo = .ok i →
    wellFormed i = true ∧ hiByte (encode i) = hi ∧ loByte (encode i) = lo

/-- The words that are rejected are exactly those of the table of 30_encoding.md R76 (D10, C14; log entry 13), each with
the word itself. -/
def Obligations.IllegalWordsAreRejected : Prop :=
  ∀ op : Word, decode (hiByte op) (loByte op) = .error (.unknownOpcode op) ↔
    (op.toNat / 4096 = 0x0 ∧ op.toNat ≠ 0x00E0 ∧ op.toNat ≠ 0x00EE) ∨
    (op.toNat / 4096 = 0x5 ∧ op.toNat % 16 ≠ 0) ∨
    (op.toNat / 4096 = 0x8 ∧ op.toNat % 16 ∈ [0x8, 0x9, 0xA, 0xB, 0xC, 0xD, 0xF]) ∨
    (op.toNat / 4096 = 0x9 ∧ op.toNat % 16 ≠ 0) ∨
    (op.toNat / 4096 = 0xE ∧ op.toNat % 256 ∉ [0x9E, 0xA1]) ∨
    (op.toNat / 4096 = 0xF ∧ op.toNat % 256 ∉ [0x07, 0x0A, 0x15, 0x18, 0x1E, 0x29, 0x33, 0x55, 0x65])

/-- A word of each family, read bit by bit from the formats of 30_encoding.md R72 and the patterns of R75. -/
def Obligations.SampleWordsDecode : Prop :=
  decode 0x00 0xEE = .ok .ret ∧
  decode 0x2A 0xBC = .ok (.call 0xABC) ∧
  decode 0x37 0x42 = .ok (.seImm 7 0x42) ∧
  decode 0x8A 0xB5 = .ok (.subReg 0xA 0xB) ∧
  decode 0xC3 0x0F = .ok (.rnd 3 0x0F) ∧
  decode 0xF2 0x65 = .ok (.loadRegs 2) ∧
  decode 0xD1 0x2F = .ok (.drw 1 2 15) ∧
  decode 0xEE 0xA1 = .ok (.sknp 0xE) ∧
  decode 0x81 0x2F = .error (.unknownOpcode 0x812F)

/-! ### The step cycle and faults (30_encoding.md R74, 60_exceptions.md) -/

/-- A step of a running machine runs the instruction its two bytes decode to, on the state with pc advanced by 2
(30_encoding.md R74). -/
def Obligations.StepRunsDecodedInstruction : Prop :=
  ∀ (s : State) (i : Instr), s.status = .running → s.pc.toNat + 1 < 4096 →
    decode (s.mem.byteAt s.pc.toNat) (s.mem.byteAt (s.pc.toNat + 1)) = .ok i →
    step s = exec i { s with pc := s.pc + 2 }

/-- The two fetch faults of 60_exceptions.md R214 (20_memory.md R51), the byte at pc first (R220). The fault's name and the
recorded addresses are the spec's D1, unreduced addresses D2, the order D14 (log entry 11). -/
def Obligations.FetchOutOfRangeFaults : Prop :=
  ∀ s : State, s.status = .running →
    (4096 ≤ s.pc.toNat → Raises (step s) (.memoryOutOfRange s.pc.toNat)) ∧
    (s.pc.toNat = 4095 → Raises (step s) (.memoryOutOfRange 4096))

/-- 60_exceptions.md R211: a fetched word that matches no row raises UnknownOpcode with that word, the step command fails with
it (R217), and the machine stops stepping; every 8xyF is such a word. That the status records the fault is the spec's D12 (log
entry 1). -/
def Obligations.UnknownOpcodeStopsTheMachine : Prop :=
  (∀ s : State, s.status = .running → s.pc.toNat + 1 < 4096 →
    decodeWord (BitVec.ofNat 16 (256 * (s.mem.byteAt s.pc.toNat).toNat + (s.mem.byteAt (s.pc.toNat + 1)).toNat)) = none →
    ∃ t, step s = .next t ∧
      t.status = .faulted (.unknownOpcode
        (BitVec.ofNat 16 (256 * (s.mem.byteAt s.pc.toNat).toNat + (s.mem.byteAt (s.pc.toNat + 1)).toNat))) ∧
      command .step s = .next (t, .failed (.unknownOpcode
        (BitVec.ofNat 16 (256 * (s.mem.byteAt s.pc.toNat).toNat + (s.mem.byteAt (s.pc.toNat + 1)).toNat)))) ∧
      ∀ u, step t ≠ .next u) ∧
  ∀ x y : RegIndex, decodeWord (wordXYN 0x8 x.val y.val 0xF) = none

/-- A faulted machine is terminal: none of the five commands of 60_exceptions.md R218 has a transition, and each keeps
naming the fault (D12, log entry 1). -/
def Obligations.FaultedMachineIsTerminal : Prop :=
  ∀ (s : State) (f : Fault), s.status = .faulted f →
    step s = .fault f ∧ command .step s = .fault f ∧ command .tickTimers s = .fault f ∧
    command .consumeRedraw s = .fault f ∧ (∀ image, command (.load image) s = .fault f) ∧
    ∀ k p, command (.setKey k p) s = .fault f

/-- Every instruction runs: in a running machine `exec` answers a next state for each of them, faulted exactly in the cases
of 60_exceptions.md R212–R215 and R220 (the memory and key faults by the spec's D1, D11, D14; log entries 11 and 14). -/
def Obligations.ExecFaultsExactlyAsListed : Prop :=
  ∀ (i : Instr) (s : State), s.status = .running →
    ∃ t, exec i s = .next t ∧ t.status = statusAfter (ownFault i s)

/-! ### Invariants and whole-machine rules -/

/-- The canonical form of memory is kept by every step (20_memory.md R50), faulting ones too. -/
def Obligations.StepKeepsMemoryCanonical : Prop :=
  ∀ s t : State, s.mem.wf → step s = .next t → t.mem.wf

/-- The reachable pc bound 0x10FE of 10_state.md R34 is kept by every step. -/
def Obligations.StepKeepsPcBounded : Prop :=
  ∀ s t : State, s.PcBounded → step s = .next t → t.PcBounded

/-- Both invariants survive every run of host commands, in any order (00_scope.md R5, 70_reset_and_hazards.md R260). -/
def Obligations.CommandRunsKeepInvariants : Prop :=
  ∀ (cs : List Command) (s t : State), s.mem.wf → s.PcBounded → runCommands cs s = .next t →
    t.mem.wf ∧ t.PcBounded

/-- The reset state meets both invariants. -/
def Obligations.ResetMeetsInvariants : Prop :=
  State.reset.mem.wf ∧ State.reset.PcBounded

/-- The reset table of 10_state.md R35 with the 80 font bytes of 20_memory.md R55, one line per two glyphs. I, DT and ST are 0
by the spec's decision D8 (log entry 4), the font bytes and their base by D4 and D5 (log entries 6 and 7). -/
def Obligations.ResetState : Prop :=
  (∀ a, a < 4096 → (a < 0x050 ∨ 0x0A0 ≤ a) → State.reset.mem.byteAt a = 0) ∧
  (List.range 80).map (fun k => State.reset.mem.byteAt (0x050 + k)) =
    [0xF0, 0x90, 0x90, 0x90, 0xF0, 0x20, 0x60, 0x20, 0x20, 0x70] ++
    [0xF0, 0x10, 0xF0, 0x80, 0xF0, 0xF0, 0x10, 0xF0, 0x10, 0xF0] ++
    [0x90, 0x90, 0xF0, 0x10, 0x10, 0xF0, 0x80, 0xF0, 0x10, 0xF0] ++
    [0xF0, 0x80, 0xF0, 0x90, 0xF0, 0xF0, 0x10, 0x20, 0x40, 0x40] ++
    [0xF0, 0x90, 0xF0, 0x90, 0xF0, 0xF0, 0x90, 0xF0, 0x10, 0xF0] ++
    [0xF0, 0x90, 0xF0, 0x90, 0x90, 0xE0, 0x90, 0xE0, 0x90, 0xE0] ++
    [0xF0, 0x80, 0x80, 0x80, 0xF0, 0xE0, 0x90, 0x90, 0x90, 0xE0] ++
    [0xF0, 0x80, 0xF0, 0x80, 0xF0, 0xF0, 0x80, 0xF0, 0x80, 0x80] ∧
  (∀ x : RegIndex, State.reset.v[x] = 0) ∧ (∀ j : Fin 16, State.reset.stack[j] = 0) ∧
  (∀ k : Fin 16, State.reset.key[k] = false) ∧ (∀ X Y, State.reset.fb.cell X Y = false) ∧
  State.reset.i = 0 ∧ State.reset.pc = 0x200 ∧ State.reset.sp = 0 ∧ State.reset.dt = 0 ∧ State.reset.st = 0 ∧
  State.reset.redraw = true ∧ State.reset.status = .running

/-- With nothing loaded the first step fetches 0x0000 at 0x200 and raises UnknownOpcode(0x0000) (70_reset_and_hazards.md R251).
That 0000 is illegal, as a 0nnn word, is the spec's D10 (log entry 13); that nothing is loaded at reset is log entry 28. -/
def Obligations.FirstStepWithNothingLoaded : Prop :=
  Raises (step State.reset) (.unknownOpcode 0x0000)

/-- MemWrite then MemRead of one byte: the byte written comes back, every other byte keeps its value, and both fault at 4096
and above with the address (20_memory.md R51, R52; D1, D3, log entries 8 and 11). -/
def Obligations.MemoryReadAfterWrite : Prop :=
  ∀ (m : Memory) (a : Nat) (b : Byte), m.wf →
    (a < 4096 → ∃ m', memWrite m a b = .ok m' ∧ m'.wf ∧ memRead m' a = .ok b ∧
      ∀ c, c ≠ a → m'.byteAt c = m.byteAt c) ∧
    (4096 ≤ a → memWrite m a b = .error (.memoryOutOfRange a) ∧ memRead m a = .error (.memoryOutOfRange a))

/-- Two canonical memories with the same 4096 bytes are the same data (20_memory.md R50). -/
def Obligations.CanonicalMemoriesAgree : Prop :=
  ∀ m m' : Memory, m.wf → m'.wf → (∀ a, a < 4096 → m.byteAt a = m'.byteAt a) → m = m'

/-- Which instructions write which state, in a step that raises no fault: no instruction writes the keypad, DT is written
only by Fx15, ST by Fx18, I by Annn, Fx1E and Fx29, the stack slots by 2nnn, SP by 2nnn and 00EE, the framebuffer and the
redraw flag by 00E0 and Dxyn, memory by Fx33 and Fx55 (10_state.md R23, R25–R31; C1, C2; D9, log entry 12). -/
def Obligations.OnlyNamedInstructionsWrite : Prop :=
  ∀ (i : Instr) (s t : State), s.status = .running → exec i s = .next t → t.status = .running →
    t.key = s.key ∧
    (t.dt ≠ s.dt → ∃ x, i = .ldDtVx x) ∧
    (t.st ≠ s.st → ∃ x, i = .ldStVx x) ∧
    (t.i ≠ s.i → (∃ nnn, i = .ldI nnn) ∨ (∃ x, i = .addI x) ∨ ∃ x, i = .ldF x) ∧
    (t.stack ≠ s.stack → ∃ nnn, i = .call nnn) ∧
    (t.sp ≠ s.sp → i = .ret ∨ ∃ nnn, i = .call nnn) ∧
    (t.fb ≠ s.fb ∨ t.redraw ≠ s.redraw → i = .cls ∨ ∃ x y n, i = .drw x y n) ∧
    (t.mem ≠ s.mem → (∃ x, i = .ldB x) ∨ ∃ x, i = .storeRegs x)

/-- VF is written only by the instructions of 10_state.md R22's table and by those whose destination field is F, or whose
destination range ends there (FF65) (D9, log entry 12). -/
def Obligations.OnlyNamedInstructionsWriteVF : Prop :=
  ∀ (i : Instr) (s t : State), s.status = .running → exec i s = .next t → t.status = .running → t.v[vf] ≠ s.v[vf] →
    (∃ x y, i = .addReg x y ∨ i = .subReg x y ∨ i = .shr x y ∨ i = .subnReg x y ∨ i = .shl x y) ∨
    (∃ x y n, i = .drw x y n) ∨
    (∃ kk, i = .ldImm vf kk ∨ i = .addImm vf kk ∨ i = .rnd vf kk) ∨
    (∃ y, i = .ldReg vf y ∨ i = .orReg vf y ∨ i = .andReg vf y ∨ i = .xorReg vf y) ∨
    i = .ldVxDt vf ∨ i = .ldVxK vf ∨ i = .loadRegs vf

/-- ST, `redraw` and the stack slots at index ≥ SP are invisible to a program: two machines that differ only there step
alike, to the same status, and where no fault was raised to states that again differ only there (10_state.md R36). The two
have equal draw counters, so a Cxkk draws the same free byte in both: the statement speaks of two runs with the same RNG input
(log entry 3). -/
def Obligations.HiddenStateIsInvisible : Prop :=
  ∀ s s' t : State, SameVisible s s' → step s = .next t →
    ∃ t', step s' = .next t' ∧ t'.status = t.status ∧ (t.status = .running → SameVisible t t')

/-- Instruction memory has no hazard: after a store by Fx33 or Fx55, and after a `load`, a fetch at any pc reads the stored
bytes where they lie and what memory held elsewhere; the stores leave pc, so that the very next fetch is one such (20_memory.md
R64, 70_reset_and_hazards.md R258; stores below 0x200 by the spec's D3, log entry 8; a `load` at any time by D16, log entry
16). -/
def Obligations.StoreIsSeenByNextFetch : Prop :=
  ∀ s : State, s.mem.wf →
    (∀ x : RegIndex, s.i.toNat + x.val < 4096 → ∃ t, exec (.storeRegs x) s = .next t ∧ t.pc = s.pc ∧
      FetchSees (fun a => if s.i.toNat ≤ a ∧ a ≤ s.i.toNat + x.val then s.v[a - s.i.toNat]? else none) s t) ∧
    (∀ x : RegIndex, s.i.toNat + 2 < 4096 → ∃ t, exec (.ldB x) s = .next t ∧ t.pc = s.pc ∧
      FetchSees (fun a => if s.i.toNat ≤ a ∧ a ≤ s.i.toNat + 2 then
        some (BitVec.ofNat 8 (s.v[x].toNat / 10 ^ (2 - (a - s.i.toNat)) % 10)) else none) s t) ∧
    ∀ image : List Byte, s.status = .running → image.length ≤ 3584 →
      ∃ t, command (.load image) s = .next (t, .ok) ∧ t.pc = s.pc ∧
        FetchSees (fun a => if 0x200 ≤ a then image[a - 0x200]? else none) s t

/-- A program finished at H stays there: the self-jump changes nothing (70_reset_and_hazards.md R261; D25, log entry 23). -/
def Obligations.FinishedMachineStaysFinished : Prop :=
  ∀ (s : State) (h : Word), s.FinishedAt h → step s = .next s

/-! ### Control flow (40_control_flow.md) -/

/-- 40_control_flow.md R100: 00EE pops the return address, and underflows when SP = 0. That a popped address past memory faults
only at the next fetch, as MemoryOutOfRange with that address, is the spec's D1, D14 and D30 (log entries 11 and 27). -/
def Obligations.ReturnPopsThePc : Prop :=
  decodeWord 0x00EE = some .ret ∧
  (∀ (s : State) (k : Fin 16), s.sp.val = k.val + 1 →
    ∃ t, exec .ret s = .next t ∧ t.sp.val = k.val ∧ t.pc = s.stack[k] ∧ OnlyChanges [.pc, .sp] s t ∧
      (t.status = .running → 0x1000 ≤ t.pc.toNat → Raises (step t) (.memoryOutOfRange t.pc.toNat))) ∧
  ∀ s : State, s.sp.val = 0 → Raises (exec .ret s) .stackUnderflow

/-- 40_control_flow.md R101: 1nnn sets pc to nnn and changes nothing else; a jump to 0xFFF makes the next fetch fault. That the
fault is MemoryOutOfRange(0x1000), at the fetch and not at the jump, is the spec's D1, D14 and D30 (log entries 11 and 27). -/
def Obligations.JumpSetsThePc : Prop :=
  ∀ nnn : BitVec 12, decodeWord (wordNNN 0x1 nnn.toNat) = some (.jp nnn) ∧
    ∀ s : State, ∃ t, exec (.jp nnn) s = .next t ∧ t.pc.toNat = nnn.toNat ∧ OnlyChanges [.pc] s t ∧
      (t.status = .running → nnn.toNat = 0xFFF → Raises (step t) (.memoryOutOfRange 0x1000))

/-- 40_control_flow.md R102: 2nnn pushes the advanced pc, and overflows when SP = 16. -/
def Obligations.CallPushesThePc : Prop :=
  ∀ nnn : BitVec 12, decodeWord (wordNNN 0x2 nnn.toNat) = some (.call nnn) ∧
    (∀ (s : State) (k : Fin 16), s.sp.val = k.val →
      ∃ t, exec (.call nnn) s = .next t ∧ t.stack[k] = s.pc ∧ (∀ j : Fin 16, j ≠ k → t.stack[j] = s.stack[j]) ∧
        t.sp.val = k.val + 1 ∧ t.pc.toNat = nnn.toNat ∧ OnlyChanges [.pc, .sp, .stack] s t) ∧
    ∀ s : State, s.sp.val = 16 → Raises (exec (.call nnn) s) .stackOverflow

/-- A call at address A and a 00EE at its target bring the machine back to A + 2 with SP as before (95_test_vectors.md S3 as
corrected by C4; 40_control_flow.md R100, R102). -/
def Obligations.CallThenReturn : Prop :=
  ∀ (s : State) (nnn : BitVec 12), s.status = .running → s.sp.val < 16 → fetchInstr s = .ok (.call nnn) →
    fetchInstr { s with pc := immTarget nnn } = .ok .ret →
    ∃ t u, step s = .next t ∧ t.pc.toNat = nnn.toNat ∧ step t = .next u ∧ u.pc = s.pc + 2 ∧ u.sp = s.sp ∧
      OnlyChanges [.pc, .stack] s u

/-- 40_control_flow.md R103 and R104: the immediate skips add 2 to the advanced pc when Vx = kk, and when Vx ≠ kk. -/
def Obligations.ImmediateSkips : Prop :=
  ∀ (x : RegIndex) (kk : Byte),
    decodeWord (wordXKK 0x3 x.val kk.toNat) = some (.seImm x kk) ∧
    decodeWord (wordXKK 0x4 x.val kk.toNat) = some (.sneImm x kk) ∧
    ∀ s : State, ∃ t u, exec (.seImm x kk) s = .next t ∧ exec (.sneImm x kk) s = .next u ∧
      t.pc.toNat = (if s.v[x].toNat = kk.toNat then (s.pc.toNat + 2) % 65536 else s.pc.toNat) ∧
      u.pc.toNat = (if s.v[x].toNat ≠ kk.toNat then (s.pc.toNat + 2) % 65536 else s.pc.toNat) ∧
      OnlyChanges [.pc] s t ∧ OnlyChanges [.pc] s u

/-- 40_control_flow.md R105 and R106: the register skips add 2 to the advanced pc when Vx = Vy, and when Vx ≠ Vy; with a
nonzero low nibble their words are illegal (30_encoding.md R76; the spec's D10, log entry 13). -/
def Obligations.RegisterSkips : Prop :=
  ∀ x y : RegIndex,
    decodeWord (wordXYN 0x5 x.val y.val 0x0) = some (.seReg x y) ∧
    decodeWord (wordXYN 0x9 x.val y.val 0x0) = some (.sneReg x y) ∧
    (∀ n, 1 ≤ n → n ≤ 15 → decodeWord (wordXYN 0x5 x.val y.val n) = none ∧ decodeWord (wordXYN 0x9 x.val y.val n) = none) ∧
    ∀ s : State, ∃ t u, exec (.seReg x y) s = .next t ∧ exec (.sneReg x y) s = .next u ∧
      t.pc.toNat = (if s.v[x].toNat = s.v[y].toNat then (s.pc.toNat + 2) % 65536 else s.pc.toNat) ∧
      u.pc.toNat = (if s.v[x].toNat ≠ s.v[y].toNat then (s.pc.toNat + 2) % 65536 else s.pc.toNat) ∧
      OnlyChanges [.pc] s t ∧ OnlyChanges [.pc] s u

/-- 40_control_flow.md R107: Bnnn sets pc to nnn + V0, at most 0x10FE; a target of 0xFFF or more makes the next fetch fault.
That fault's recorded address, max(pc, 0x1000), is the spec's D1 and D14 (60_exceptions.md R214, log entry 11), its place at
the fetch D30 (log entry 27). -/
def Obligations.IndexedJump : Prop :=
  ∀ nnn : BitVec 12, decodeWord (wordNNN 0xB nnn.toNat) = some (.jpV0 nnn) ∧
    ∀ s : State, ∃ t, exec (.jpV0 nnn) s = .next t ∧ t.pc.toNat = nnn.toNat + s.v[0].toNat ∧ t.pc.toNat ≤ 0x10FE ∧
      OnlyChanges [.pc] s t ∧
      (t.status = .running → 0xFFF ≤ t.pc.toNat → Raises (step t) (.memoryOutOfRange (max t.pc.toNat 0x1000)))

/-! ### Register arithmetic and logic (41_alu.md) -/

/-- 41_alu.md R120: 6xkk writes kk to Vx and nothing else. -/
def Obligations.LoadImmediate : Prop :=
  ∀ (x : RegIndex) (kk : Byte), decodeWord (wordXKK 0x6 x.val kk.toNat) = some (.ldImm x kk) ∧
    ∀ s : State, ∃ t, exec (.ldImm x kk) s = .next t ∧ t.v[x] = kk ∧ OnlyRegs [x] s t ∧ OnlyChanges [.v] s t

/-- 41_alu.md R121: 7xkk adds kk to Vx mod 256; VF is written only when x = F. -/
def Obligations.AddImmediateWraps : Prop :=
  ∀ (x : RegIndex) (kk : Byte), decodeWord (wordXKK 0x7 x.val kk.toNat) = some (.addImm x kk) ∧
    ∀ s : State, ∃ t, exec (.addImm x kk) s = .next t ∧ t.v[x].toNat = (s.v[x].toNat + kk.toNat) % 256 ∧
      OnlyRegs [x] s t ∧ OnlyChanges [.v] s t

/-- 41_alu.md R122: 8xy0 copies Vy to Vx and changes nothing else. -/
def Obligations.CopyRegister : Prop :=
  ∀ x y : RegIndex, decodeWord (wordXYN 0x8 x.val y.val 0x0) = some (.ldReg x y) ∧
    ∀ s : State, ∃ t, exec (.ldReg x y) s = .next t ∧ t.v[x] = s.v[y] ∧ OnlyRegs [x] s t ∧ OnlyChanges [.v] s t

/-- 41_alu.md R123–R125: 8xy1, 8xy2 and 8xy3 combine Vx and Vy bit by bit into Vx; VF is unchanged unless x = F (the spec's
D9, log entry 12). -/
def Obligations.LogicBitByBit : Prop :=
  ∀ (x y : RegIndex) (s : State), ∃ t u w,
    exec (.orReg x y) s = .next t ∧ exec (.andReg x y) s = .next u ∧ exec (.xorReg x y) s = .next w ∧
    (∀ b, b < 8 → t.v[x].getLsbD b = (s.v[x].getLsbD b || s.v[y].getLsbD b) ∧
      u.v[x].getLsbD b = (s.v[x].getLsbD b && s.v[y].getLsbD b) ∧
      w.v[x].getLsbD b = (s.v[x].getLsbD b != s.v[y].getLsbD b)) ∧
    OnlyRegs [x] s t ∧ OnlyChanges [.v] s t ∧ OnlyRegs [x] s u ∧ OnlyChanges [.v] s u ∧
    OnlyRegs [x] s w ∧ OnlyChanges [.v] s w

/-- 41_alu.md R126: 8xy4 leaves the sum mod 256 in Vx and the carry in VF; when x = F, VF holds the carry (R133, the spec's
D21, log entry 19). -/
def Obligations.AddWithCarry : Prop :=
  ∀ (x y : RegIndex) (s : State), ∃ t, exec (.addReg x y) s = .next t ∧
    (x ≠ vf → t.v[x].toNat = (s.v[x].toNat + s.v[y].toNat) % 256) ∧
    t.v[vf].toNat = (if 255 < s.v[x].toNat + s.v[y].toNat then 1 else 0) ∧
    OnlyRegs [x, vf] s t ∧ OnlyChanges [.v] s t

/-- 41_alu.md R127 and R129: 8xy5 and 8xy7 leave the difference mod 256 in Vx and NOT borrow in VF; when x = F, VF holds the
flag (R133, the spec's D21, log entry 19). -/
def Obligations.SubtractWithoutBorrow : Prop :=
  ∀ (x y : RegIndex) (s : State), ∃ t u, exec (.subReg x y) s = .next t ∧ exec (.subnReg x y) s = .next u ∧
    (x ≠ vf → t.v[x].toNat = (s.v[x].toNat + 256 - s.v[y].toNat) % 256 ∧
      u.v[x].toNat = (s.v[y].toNat + 256 - s.v[x].toNat) % 256) ∧
    t.v[vf].toNat = (if s.v[x].toNat ≥ s.v[y].toNat then 1 else 0) ∧
    u.v[vf].toNat = (if s.v[y].toNat ≥ s.v[x].toNat then 1 else 0) ∧
    OnlyRegs [x, vf] s t ∧ OnlyChanges [.v] s t ∧ OnlyRegs [x, vf] s u ∧ OnlyChanges [.v] s u

/-- 41_alu.md R128: 8xy6 leaves Vx / 2 in Vx and the bit shifted out in VF, whatever Vy is (D29, log entry 26); when x = F,
VF ends 0 (R133, the spec's D20, log entry 19). -/
def Obligations.ShiftRight : Prop :=
  ∀ (x y : RegIndex) (s : State), ∃ t, exec (.shr x y) s = .next t ∧
    (x ≠ vf → t.v[x].toNat = s.v[x].toNat / 2 ∧ t.v[vf].toNat = s.v[x].toNat % 2) ∧
    (x = vf → t.v[vf] = 0) ∧ OnlyRegs [x, vf] s t ∧ OnlyChanges [.v] s t

/-- 41_alu.md R130: 8xyE leaves 2·Vx mod 256 in Vx and the bit shifted out in VF, whatever Vy is (D29, log entry 26); when
x = F, VF ends 0 or 2, twice the old top bit (R133, the spec's D20, log entry 19). -/
def Obligations.ShiftLeft : Prop :=
  ∀ (x y : RegIndex) (s : State), ∃ t, exec (.shl x y) s = .next t ∧
    (x ≠ vf → t.v[x].toNat = 2 * s.v[x].toNat % 256 ∧ t.v[vf].toNat = s.v[x].toNat / 128) ∧
    (x = vf → t.v[vf].toNat = 2 * (s.v[vf].toNat / 128)) ∧ OnlyRegs [x, vf] s t ∧ OnlyChanges [.v] s t

/-- 41_alu.md R131: Cxkk leaves the drawn byte AND kk in Vx and draws one byte, also when kk = 0. The byte is a free value
(D18, log entry 3): the statement holds whatever it is. -/
def Obligations.RandomByteIsMasked : Prop :=
  ∀ (x : RegIndex) (kk : Byte) (s : State), ∃ t, exec (.rnd x kk) s = .next t ∧
    (∀ b, b < 8 → t.v[x].getLsbD b = ((Config.randomByte s.draws).getLsbD b && kk.getLsbD b)) ∧
    (kk = 0 → t.v[x] = 0) ∧ t.draws = s.draws + 1 ∧ OnlyRegs [x] s t ∧ OnlyChanges [.v, .draws] s t

/-! ### Index register and memory (42_index_memory.md) -/

/-- 42_index_memory.md R150: Annn sets I to nnn and changes nothing else; from I = 0xFFF every multi-byte access faults at
0x1000. That fault's name and recorded address and the ascending order are the spec's D1, D2 and D14 (60_exceptions.md R214,
log entry 11). -/
def Obligations.LoadIndex : Prop :=
  ∀ nnn : BitVec 12, decodeWord (wordNNN 0xA nnn.toNat) = some (.ldI nnn) ∧
    ∀ s : State, ∃ t, exec (.ldI nnn) s = .next t ∧ t.i.toNat = nnn.toNat ∧ t.i.toNat ≤ 0x0FFF ∧ OnlyChanges [.i] s t ∧
      (nnn.toNat = 0xFFF → ∀ x y : RegIndex, Raises (exec (.ldB x) t) (.memoryOutOfRange 0x1000) ∧
        (1 ≤ x.val → Raises (exec (.storeRegs x) t) (.memoryOutOfRange 0x1000) ∧
          Raises (exec (.loadRegs x) t) (.memoryOutOfRange 0x1000)) ∧
        ∀ n, 2 ≤ n → n ≤ 15 → Raises (exec (.drw x y n) t) (.memoryOutOfRange 0x1000))

/-- 42_index_memory.md R151: Fx1E adds Vx to I mod 65536 and writes no flag (the spec's D9, log entry 12). -/
def Obligations.AddToIndexWraps : Prop :=
  ∀ (x : RegIndex) (s : State), ∃ t, exec (.addI x) s = .next t ∧
    t.i.toNat = (s.i.toNat + s.v[x].toNat) % 65536 ∧ OnlyChanges [.i] s t

/-- 42_index_memory.md R152: Fx29 points I at the glyph of Vx's low nibble, at the font base of the spec's D5 (log entry 7). -/
def Obligations.GlyphAddress : Prop :=
  ∀ (x : RegIndex) (s : State), ∃ t, exec (.ldF x) s = .next t ∧
    t.i.toNat = 0x050 + 5 * (s.v[x].toNat % 16) ∧ OnlyChanges [.i] s t

/-- 42_index_memory.md R153: Fx33 stores the three decimal digits of Vx at I, I + 1, I + 2, and every other byte of memory
and all other state, I too (D9, log entry 12), is unchanged. That an in-range store to 0x000–0x1FF takes effect is the spec's
D3 (log entry 8). -/
def Obligations.StoreDecimalDigits : Prop :=
  ∀ (x : RegIndex) (s : State), s.mem.wf → s.i.toNat + 2 < 4096 → ∃ t, exec (.ldB x) s = .next t ∧
    (t.mem.byteAt s.i.toNat).toNat = s.v[x].toNat / 100 ∧
    (t.mem.byteAt (s.i.toNat + 1)).toNat = s.v[x].toNat / 10 % 10 ∧
    (t.mem.byteAt (s.i.toNat + 2)).toNat = s.v[x].toNat % 10 ∧
    (∀ a, a < s.i.toNat ∨ s.i.toNat + 2 < a → t.mem.byteAt a = s.mem.byteAt a) ∧ OnlyChanges [.mem] s t

/-- 42_index_memory.md R154: Fx55 stores V0..Vx at I..I + x; every other byte and all other state, I too (D9, log entry 12),
is unchanged. That an in-range store to 0x000–0x1FF takes effect is the spec's D3 (log entry 8). -/
def Obligations.StoreRegisters : Prop :=
  ∀ (x : RegIndex) (s : State), s.mem.wf → s.i.toNat + x.val < 4096 → ∃ t, exec (.storeRegs x) s = .next t ∧
    (∀ j : RegIndex, j ≤ x → t.mem.byteAt (s.i.toNat + j.val) = s.v[j]) ∧
    (∀ a, a < s.i.toNat ∨ s.i.toNat + x.val < a → t.mem.byteAt a = s.mem.byteAt a) ∧ OnlyChanges [.mem] s t

/-- 42_index_memory.md R155: Fx65 loads V0..Vx from I..I + x; the other registers and all other state, I too (D9, log entry
12), is unchanged. -/
def Obligations.LoadRegisters : Prop :=
  ∀ (x : RegIndex) (s : State), s.i.toNat + x.val < 4096 → ∃ t, exec (.loadRegs x) s = .next t ∧
    (∀ j : RegIndex, j ≤ x → t.v[j] = s.mem.byteAt (s.i.toNat + j.val)) ∧
    (∀ j : RegIndex, x < j → t.v[j] = s.v[j]) ∧ OnlyChanges [.v] s t

/-! ### Display (43_display.md) -/

/-- 43_display.md R170: 00E0 turns every cell off and sets redraw, whatever they were. -/
def Obligations.ClearScreen : Prop :=
  decodeWord 0x00E0 = some .cls ∧
  ∀ s : State, ∃ t, exec .cls s = .next t ∧ (∀ X Y, t.fb.cell X Y = false) ∧ t.redraw = true ∧
    OnlyChanges [.fb, .redraw] s t

/-- 43_display.md R171–R173: Dxyn flips exactly the cells its 1-bits land on, VF is 1 exactly if one of them was on, redraw
is set if there is one and otherwise unchanged (n = 0 and the redraw rule: the spec's D22, log entry 20; wrapping: D23, log
entry 21); all other state, I too (D9, log entry 12), is unchanged. -/
def Obligations.DrawSprite : Prop :=
  ∀ (x y : RegIndex) (n : Nat) (s : State), n ≤ 15 → (n = 0 ∨ s.i.toNat + n - 1 < 4096) →
    ∃ t, exec (.drw x y n) s = .next t ∧
      (∀ X Y, (Plots s x y n X Y → t.fb.cell X Y = !s.fb.cell X Y) ∧
        (¬ Plots s x y n X Y → t.fb.cell X Y = s.fb.cell X Y)) ∧
      ((∃ X Y, Plots s x y n X Y ∧ s.fb.cell X Y = true) → t.v[vf].toNat = 1) ∧
      ((¬ ∃ X Y, Plots s x y n X Y ∧ s.fb.cell X Y = true) → t.v[vf].toNat = 0) ∧
      ((∃ X Y, Plots s x y n X Y) → t.redraw = true) ∧
      ((¬ ∃ X Y, Plots s x y n X Y) → t.redraw = s.redraw) ∧
      OnlyRegs [vf] s t ∧ OnlyChanges [.fb, .v, .redraw] s t

/-- Drawing the same sprite twice restores the framebuffer, and the second draw collides exactly if a 1-bit of the sprite lands
on a cell that was off at the start (43_display.md R171, its example; x and y are not F, because the first draw writes VF). It
rests on I being kept (D9, log entry 12), n = 0 (D22, log entry 20) and the wrap (D23, log entry 21). -/
def Obligations.DrawTwiceErases : Prop :=
  ∀ (x y : RegIndex) (n : Nat) (s : State), x ≠ vf → y ≠ vf → n ≤ 15 → (n = 0 ∨ s.i.toNat + n - 1 < 4096) →
    ∃ t u, exec (.drw x y n) s = .next t ∧ exec (.drw x y n) t = .next u ∧ u.fb = s.fb ∧
      ((∃ X Y, Plots s x y n X Y ∧ s.fb.cell X Y = false) → u.v[vf].toNat = 1) ∧
      ((¬ ∃ X Y, Plots s x y n X Y ∧ s.fb.cell X Y = false) → u.v[vf].toNat = 0)

/-! ### Timers and keypad (44_timers_keypad.md) -/

/-- 44_timers_keypad.md R190, R191, R196: the key skips test key Vx, and a Vx above 15 raises KeyIndexOutOfRange(Vx) (the
spec's D11, log entry 14). -/
def Obligations.KeySkips : Prop :=
  ∀ (x : RegIndex) (s : State),
    (∀ k : Fin 16, s.v[x].toNat = k.val → ∃ t u, exec (.skp x) s = .next t ∧ exec (.sknp x) s = .next u ∧
      t.pc.toNat = (if s.key[k] = true then (s.pc.toNat + 2) % 65536 else s.pc.toNat) ∧
      u.pc.toNat = (if s.key[k] = false then (s.pc.toNat + 2) % 65536 else s.pc.toNat) ∧
      OnlyChanges [.pc] s t ∧ OnlyChanges [.pc] s u) ∧
    (15 < s.v[x].toNat →
      Raises (exec (.skp x) s) (.keyIndexOutOfRange s.v[x]) ∧ Raises (exec (.sknp x) s) (.keyIndexOutOfRange s.v[x]))

/-- 44_timers_keypad.md R192, R194, R195: Fx07 reads DT into Vx, Fx15 and Fx18 load DT and ST from Vx, and nothing else
changes. -/
def Obligations.TimerTransfers : Prop :=
  ∀ x : RegIndex,
    decodeWord (wordXKK 0xF x.val 0x07) = some (.ldVxDt x) ∧ decodeWord (wordXKK 0xF x.val 0x15) = some (.ldDtVx x) ∧
    decodeWord (wordXKK 0xF x.val 0x18) = some (.ldStVx x) ∧
    ∀ s : State, ∃ t u w, exec (.ldVxDt x) s = .next t ∧ exec (.ldDtVx x) s = .next u ∧ exec (.ldStVx x) s = .next w ∧
      t.v[x] = s.dt ∧ u.dt = s.v[x] ∧ w.st = s.v[x] ∧ OnlyRegs [x] s t ∧ OnlyChanges [.v] s t ∧
      OnlyChanges [.dt] s u ∧ OnlyChanges [.st] s w

/-- 44_timers_keypad.md R193: Fx0A writes the lowest pressed key to Vx; with none pressed it rewinds pc by 2 and changes
nothing else (sampling at the step is the spec's D24, log entry 22). -/
def Obligations.WaitForKey : Prop :=
  ∀ (x : RegIndex) (s : State),
    (∀ k : Fin 16, s.key[k] = true → (∀ j : Fin 16, j < k → s.key[j] = false) →
      ∃ t, exec (.ldVxK x) s = .next t ∧ t.v[x].toNat = k.val ∧ OnlyRegs [x] s t ∧ OnlyChanges [.v] s t) ∧
    ((∀ k : Fin 16, s.key[k] = false) → ∃ t, exec (.ldVxK x) s = .next t ∧ t.pc + 2 = s.pc ∧ OnlyChanges [.pc] s t)

/-- The busy-wait is idempotent: a step at Fx0A with no key pressed leaves the machine as it was, and after `set_key(k, true)`
the next step resolves Vx = k and advances pc by 2 (44_timers_keypad.md R193, 95_test_vectors.md S5). -/
def Obligations.KeyWaitIsIdempotent : Prop :=
  ∀ (s : State) (x : RegIndex), s.status = .running → fetchInstr s = .ok (.ldVxK x) →
    (∀ k : Fin 16, s.key[k] = false) →
    step s = .next s ∧
    ∀ k : Fin 16, ∃ t u, command (.setKey k.val true) s = .next (t, .ok) ∧ step t = .next u ∧
      u.v[x].toNat = k.val ∧ u.pc = s.pc + 2

/-! ### Host commands (60_exceptions.md, 70_reset_and_hazards.md) -/

/-- 60_exceptions.md R224: `tick_timers` decrements each timer by 1, saturating at 0, and changes nothing else; it is defined
when the machine is running. That a faulted machine has no transition and keeps its fault is the spec's D12 (R218, log entry
1). -/
def Obligations.TickTimersSaturates : Prop :=
  ∀ s : State,
    (s.status = .running → ∃ t, command .tickTimers s = .next (t, .ok) ∧
      t.dt.toNat = (if 0 < s.dt.toNat then s.dt.toNat - 1 else 0) ∧
      t.st.toNat = (if 0 < s.st.toNat then s.st.toNat - 1 else 0) ∧ OnlyChanges [.dt, .st] s t) ∧
    ∀ f, s.status = .faulted f → command .tickTimers s = .fault f

/-- 60_exceptions.md R226: `set_key` sets exactly one key; a number above 15 is refused by name (the spec's D26, log entry 24). -/
def Obligations.SetKeySetsOneKey : Prop :=
  ∀ (s : State) (p : Bool), s.status = .running →
    (∀ k : Fin 16, ∃ t, command (.setKey k.val p) s = .next (t, .ok) ∧ t.key[k] = p ∧
      (∀ j : Fin 16, j ≠ k → t.key[j] = s.key[j]) ∧ OnlyChanges [.key] s t) ∧
    ∀ k, 15 < k → command (.setKey k p) s = .refused (.setKeyContract k)

/-- 60_exceptions.md R227, R228, 43_display.md R174: the accessors return fb row-major, redraw and ST and change nothing;
`consume_redraw` (the spec's D17, log entry 17) clears redraw alone. The accessors are valid in any status; that on a faulted
machine they read the state's own cells, redraw and ST, which the fault left unspecified, is DEDUCED (log entry 25), and that
sound is the value ST alone is the spec's D27 (log entry 25). -/
def Obligations.AccessorsAndConsumeRedraw : Prop :=
  ∀ s : State,
    (∃ cells : Vector Bool (32 * 64), command .video s = .next (s, .cells cells) ∧
      ∀ (X : Fin 64) (Y : Fin 32), cells[Y.val * 64 + X.val]? = some (s.fb.cell X Y)) ∧
    command .redraw s = .next (s, .flag s.redraw) ∧ command .sound s = .next (s, .level s.st) ∧
    (s.status = .running → ∃ t, command .consumeRedraw s = .next (t, .ok) ∧ t.redraw = false ∧ OnlyChanges [.redraw] s t)

/-- 70_reset_and_hazards.md R252, R253: `load` copies an image of at most 3584 bytes to 0x200 up and writes nothing else; a
longer one returns ImageTooLarge with its length and leaves the machine unchanged (the spec's D15, log entry 16). -/
def Obligations.LoadCopiesTheImage : Prop :=
  ∀ (s : State) (image : List Byte), s.status = .running → s.mem.wf →
    (image.length ≤ 3584 → ∃ t, command (.load image) s = .next (t, .ok) ∧
      (∀ j, j < image.length → t.mem.byteAt (0x200 + j) = image.getD j 0) ∧
      (∀ a, a < 0x200 ∨ 0x200 + image.length ≤ a → t.mem.byteAt a = s.mem.byteAt a) ∧ OnlyChanges [.mem] s t) ∧
    (3584 < image.length → command (.load image) s = .next (s, .imageTooLarge image.length))

/-- 70_reset_and_hazards.md R250: `construct` gives the reset state from any machine, a faulted one too; only the model's
draw counter goes on (log entry 29). The reset values of I, DT and ST are the spec's D8 (log entry 4), the font D4 and D5 (log
entries 6 and 7). -/
def Obligations.ConstructResets : Prop :=
  ∀ s : State, ∃ t, command .construct s = .next (t, .ok) ∧ OnlyChanges [.draws] State.reset t ∧ t.draws = s.draws

/-- The `step` command on a running machine: it always has a transition, to the state `step` gives, and replies ok when that
state is still running and the typed failure with the fault when the step raised one (60_exceptions.md R217, R230; that the
status records the fault is the spec's D12, log entry 1). -/
def Obligations.StepCommandReportsTheFault : Prop :=
  ∀ s : State, s.status = .running → ∃ t, step s = .next t ∧
    (t.status = .running → command .step s = .next (t, .ok)) ∧
    ∀ f, t.status = .faulted f → command .step s = .next (t, .failed f)
end

