-- ==== Sys2Proof/Laws/Memory.lean ====
section
/-!
SUPPORT. Memory laws: a read after a write, the bytes a write leaves alone, the canonical form that every memory operation
keeps, and that canonical memories are determined by their bytes.
-/

namespace Sys2Proof.Machine

open Sys2Proof

@[simp] theorem Memory.byteAt_nil (a : Nat) : Memory.byteAt [] a = initialByte a := rfl

theorem Memory.byteAt_cell (b : Nat) (w : Byte) (m : Memory) (a : Nat) :
    Memory.byteAt ((b, w) :: m) a = if a = b then w else Memory.byteAt m a := rfl

/-- A memory whose cells all lie above `a` reads its reset contents at `a`. -/
theorem Memory.byteAt_below {m : Memory} {a : Nat} (h : ∀ c ∈ m, a < c.1) : Memory.byteAt m a = initialByte a := by
  induction m with
  | nil => rfl
  | cons c m ih =>
    have hc := h c (by simp)
    obtain ⟨b, w⟩ := c
    rw [Memory.byteAt_cell, if_neg (by simp at hc; omega)]
    exact ih fun d hd => h d (by simp [hd])

theorem Memory.wf_nil : Memory.wf [] := by simp [Memory.wf]

theorem Memory.wf_cons {b : Nat} {w : Byte} {m : Memory} :
    Memory.wf ((b, w) :: m) ↔
      (∀ c ∈ m, b < c.1) ∧ b < Config.memSize ∧ w ≠ initialByte b ∧ Memory.wf m := by
  simp only [Memory.wf, List.pairwise_cons, List.mem_cons, forall_eq_or_imp]
  constructor
  · rintro ⟨⟨h1, h2⟩, ⟨h3, h4⟩, h5⟩
    exact ⟨h1, h3, h4, h2, h5⟩
  · rintro ⟨h1, h3, h4, h2, h5⟩
    exact ⟨⟨h1, h2⟩, ⟨h3, h4⟩, h5⟩

/-- `Memory.cons` reads as the cell it was given, then as the rest. -/
theorem Memory.byteAt_cons {a : Nat} {v : Byte} {m : Memory} (h : ∀ c ∈ m, a < c.1) (c : Nat) :
    Memory.byteAt (Memory.cons a v m) c = if c = a then v else Memory.byteAt m c := by
  unfold Memory.cons
  split
  · next hv =>
    by_cases hc : c = a
    · subst hc; rw [if_pos rfl, Memory.byteAt_below h, hv]
    · rw [if_neg hc]
  · exact Memory.byteAt_cell a v m c

theorem Memory.cons_wf {a : Nat} {v : Byte} {m : Memory} (h : ∀ c ∈ m, a < c.1) (ha : a < Config.memSize)
    (hm : m.wf) : (Memory.cons a v m).wf := by
  unfold Memory.cons
  split
  · exact hm
  · next hv => exact Memory.wf_cons.2 ⟨h, ha, hv, hm⟩

/-- The cells of a written memory are at the written address or were there before. -/
theorem Memory.mem_write {m : Memory} {a : Nat} {v : Byte} {c : Host.Cell} (h : c ∈ m.write a v) :
    c.1 = a ∨ c ∈ m := by
  induction m with
  | nil =>
    simp only [Memory.write, Memory.cons] at h
    split at h <;> simp_all
  | cons d m ih =>
    obtain ⟨b, w⟩ := d
    simp only [Memory.write, Memory.cons] at h
    split at h
    · split at h <;> simp_all
      rcases h with rfl | h <;> simp_all
    · split at h
      · split at h <;> simp_all
        rcases h with rfl | h <;> simp_all
      · rcases List.mem_cons.1 h with rfl | h
        · simp
        · rcases ih h with h | h <;> simp [h]

/-- Every byte of a written canonical memory: the written value at its address, the old value elsewhere. -/
theorem Memory.byteAt_write {m : Memory} (hm : m.wf) (a : Nat) (v : Byte) (c : Nat) :
    (m.write a v).byteAt c = if c = a then v else m.byteAt c := by
  induction m with
  | nil => simpa [Memory.write] using Memory.byteAt_cons (a := a) (v := v) (m := []) (by simp) c
  | cons d m ih =>
    obtain ⟨b, w⟩ := d
    obtain ⟨hlt, hb, hw, hm'⟩ := Memory.wf_cons.1 hm
    rw [Memory.write]
    split
    · next hab =>
      refine Memory.byteAt_cons ?_ c
      intro e he
      rcases List.mem_cons.1 he with rfl | he
      · exact hab
      · have := hlt e he; omega
    · split
      · next hab =>
        subst hab
        rw [Memory.byteAt_cons hlt, Memory.byteAt_cell]
        split <;> rfl
      · next hab =>
        rw [Memory.byteAt_cell, Memory.byteAt_cell, ih hm']
        by_cases hcb : c = b
        · subst hcb; rw [if_pos rfl, if_neg (by omega), if_pos rfl]
        · simp [hcb]

/-- A write to an address of the machine keeps the canonical form. -/
theorem Memory.write_wf {m : Memory} (hm : m.wf) {a : Nat} (ha : a < Config.memSize) (v : Byte) : (m.write a v).wf := by
  induction m with
  | nil => exact Memory.cons_wf (by simp) ha hm
  | cons d m ih =>
    obtain ⟨b, w⟩ := d
    obtain ⟨hlt, hb, hw, hm'⟩ := Memory.wf_cons.1 hm
    rw [Memory.write]
    split
    · next hab =>
      refine Memory.cons_wf ?_ ha hm
      intro e he
      rcases List.mem_cons.1 he with rfl | he
      · exact hab
      · have := hlt e he; omega
    · split
      · next hab => subst hab; exact Memory.cons_wf hlt ha hm'
      · next hab =>
        refine Memory.wf_cons.2 ⟨?_, hb, hw, ih hm'⟩
        intro e he
        rcases Memory.mem_write he with h | h
        · omega
        · exact hlt e h

/-- Memory rebuilt from any cells is canonical. -/
theorem Memory.ofCells_wf (cells : List Host.Cell) : (Memory.ofCells cells).wf := by
  have step : ∀ (cs : List Host.Cell) (m : Memory), m.wf →
      (cs.foldl (fun m c => if c.1 < Config.memSize then m.write c.1 c.2 else m) m).wf := by
    intro cs
    induction cs with
    | nil => intro m hm; exact hm
    | cons c cs ih =>
      intro m hm
      rw [List.foldl_cons]
      refine ih _ ?_
      split
      · next h => exact Memory.write_wf hm h _
      · exact hm
  exact step cells [] Memory.wf_nil

end Sys2Proof.Machine
end

