-- ==== Sys2Proof/Laws/Ops.lean ====
section
/-!
SUPPORT. What each shared operation can do, said once: byte and range accesses, fault entry, the end of an instruction, and
fetching.
-/

namespace Sys2Proof.Machine

open Sys2Proof

theorem memSize_eq : Config.memSize = 4096 := rfl

/-! ### Memory accesses -/

theorem memRead_ok {m : Memory} {a : Nat} (h : a < 4096) : memRead m a = .ok (m.byteAt a) := by
  rw [memRead, memSize_eq, if_neg (by omega)]

theorem memRead_error {m : Memory} {a : Nat} (h : 4096 ≤ a) : memRead m a = .error (.memoryOutOfRange a) := by
  simp [memRead, memSize_eq, h]

theorem memWrite_ok {m : Memory} {a : Nat} {v : Byte} (h : a < 4096) : memWrite m a v = .ok (m.write a v) := by
  rw [memWrite, memSize_eq, if_neg (by omega)]

theorem memWrite_error {m : Memory} {a : Nat} {v : Byte} (h : 4096 ≤ a) :
    memWrite m a v = .error (.memoryOutOfRange a) := by
  simp [memWrite, memSize_eq, h]

/-- An in-range read of `k` bytes gives them in order. -/
theorem readBytes_ok (m : Memory) {a k : Nat} (h : k = 0 ∨ a + k ≤ 4096) :
    readBytes m a k = .ok ((List.range k).map fun j => m.byteAt (a + j)) := by
  induction k generalizing a with
  | zero => rfl
  | succ k ih =>
    rw [readBytes, memRead_ok (by omega), ih (by omega)]
    simp [List.range_succ_eq_map, Function.comp_def, Nat.add_assoc, Nat.add_comm 1]

/-- A read that leaves memory records the first out-of-range address. -/
theorem readBytes_error (m : Memory) {a k : Nat} (hk : 1 ≤ k) (h : 4096 < a + k) :
    readBytes m a k = .error (.memoryOutOfRange (max a 4096)) := by
  induction k generalizing a with
  | zero => omega
  | succ k ih =>
    rw [readBytes]
    by_cases ha : a < 4096
    · rw [memRead_ok ha, ih (by omega) (by omega)]
      simp only [show max (a + 1) 4096 = max a 4096 by omega]
    · rw [memRead_error (by omega), show max a 4096 = a by omega]

/-- An in-range write of bytes to canonical memory: it is canonical again, holds them in order, and is otherwise as before. -/
theorem writeBytes_ok {m : Memory} (hm : m.wf) {a : Nat} {bs : List Byte} (h : bs = [] ∨ a + bs.length ≤ 4096) :
    ∃ m', writeBytes m a bs = .ok m' ∧ m'.wf ∧
      ∀ c, m'.byteAt c = if a ≤ c ∧ c < a + bs.length then bs.getD (c - a) 0 else m.byteAt c := by
  induction bs generalizing m a with
  | nil => exact ⟨m, rfl, hm, fun c => by rw [if_neg (by simp only [List.length_nil]; omega)]⟩
  | cons b bs ih =>
    simp only [List.length_cons, reduceCtorEq, false_or] at h
    have hw : (m.write a b).wf := Memory.write_wf hm (by rw [memSize_eq]; omega) b
    obtain ⟨m', h1, h2, h3⟩ := ih hw (a := a + 1) (by omega)
    refine ⟨m', by rw [writeBytes, memWrite_ok (by omega)]; exact h1, h2, fun c => ?_⟩
    rw [h3 c, Memory.byteAt_write hm]
    simp only [List.length_cons]
    by_cases hc : c = a
    · subst hc; rw [if_neg (by omega), if_pos rfl, if_pos (by omega), Nat.sub_self, List.getD_cons_zero]
    · by_cases hr : a + 1 ≤ c ∧ c < a + 1 + bs.length
      · rw [if_pos hr, if_pos (by omega), show c - a = (c - (a + 1)) + 1 by omega, List.getD_cons_succ]
      · rw [if_neg hr, if_neg hc, if_neg (by omega)]

/-- A write that leaves memory records the first out-of-range address. -/
theorem writeBytes_error (m : Memory) {a : Nat} {bs : List Byte} (hb : bs ≠ []) (h : 4096 < a + bs.length) :
    writeBytes m a bs = .error (.memoryOutOfRange (max a 4096)) := by
  induction bs generalizing m a with
  | nil => exact absurd rfl hb
  | cons b bs ih =>
    rw [writeBytes]
    simp only [List.length_cons] at h
    by_cases ha : a < 4096
    · rw [memWrite_ok ha]
      by_cases hbs : bs = []
      · subst hbs; simp at h; omega
      · simp only [ih (m.write a b) (a := a + 1) hbs (by omega), show max (a + 1) 4096 = max a 4096 by omega]
    · rw [memWrite_error (by omega), show max a 4096 = a by omega]

/-- A completed write keeps the canonical form. -/
theorem writeBytes_wf {m m' : Memory} (hm : m.wf) {a : Nat} {bs : List Byte} (h : writeBytes m a bs = .ok m') : m'.wf := by
  by_cases hb : bs = []
  · subst hb; cases h; exact hm
  · by_cases hr : a + bs.length ≤ 4096
    · obtain ⟨m'', h1, h2, -⟩ := writeBytes_ok hm (a := a) (bs := bs) (.inr hr)
      rw [h1] at h; cases h; exact h2
    · rw [writeBytes_error m hb (by omega)] at h; cases h

/-! ### Faults and the end of an instruction -/

theorem raise_eq (f : Fault) (s : State) : raise f s = .next (s.takeFault f) := rfl

/-- Raising a fault answers a next state with that status. -/
theorem raises_raise (f : Fault) (s : State) : Raises (raise f s) f := ⟨s.takeFault f, rfl, rfl⟩

/-- The memory of a faulted machine is canonical. -/
theorem takeFault_wf (s : State) (f : Fault) : (s.takeFault f).mem.wf := Memory.ofCells_wf _

theorem finish_ok (s t : State) : finish s (.ok t) = .next t := rfl

theorem finish_error (s : State) (f : Fault) : finish s (.error f) = .next (s.takeFault f) := rfl

/-- `finish` answers the completed state or the raised fault. -/
theorem finish_cases {s u : State} {r : Except Fault State} (h : finish s r = .next u) :
    r = .ok u ∨ ∃ f, r = .error f ∧ u = s.takeFault f := by
  cases r with
  | ok t => cases h; exact .inl rfl
  | error f => cases h; exact .inr ⟨f, rfl, rfl⟩

/-! ### Fetch -/

theorem fetchBytes_ok {s : State} (h : s.pc.toNat + 1 < 4096) :
    fetchBytes s = .ok (s.mem.byteAt s.pc.toNat, s.mem.byteAt (s.pc.toNat + 1)) := by
  rw [fetchBytes, memRead_ok (by omega), memRead_ok h]

theorem fetchBytes_error {s : State} (h : 4095 ≤ s.pc.toNat) :
    fetchBytes s = .error (.memoryOutOfRange (max s.pc.toNat 4096)) := by
  rw [fetchBytes]
  by_cases hp : s.pc.toNat < 4096
  · rw [memRead_ok hp, memRead_error (by omega), show max s.pc.toNat 4096 = s.pc.toNat + 1 by omega]
  · rw [memRead_error (by omega), show max s.pc.toNat 4096 = s.pc.toNat by omega]

/-- A fetched instruction: pc was in range and its two bytes decode to it. -/
theorem fetchInstr_ok_iff {s : State} {i : Instr} :
    fetchInstr s = .ok i ↔
      s.pc.toNat + 1 < 4096 ∧ decode (s.mem.byteAt s.pc.toNat) (s.mem.byteAt (s.pc.toNat + 1)) = .ok i := by
  by_cases hp : s.pc.toNat + 1 < 4096
  · rw [fetchInstr, fetchBytes_ok hp]
    simp only [hp, true_and]
    cases decode (s.mem.byteAt s.pc.toNat) (s.mem.byteAt (s.pc.toNat + 1)) <;> simp
  · rw [fetchInstr, fetchBytes_error (by omega)]
    simp [hp]

/-- A step of a running machine: the fault of fetch or decode, or the instruction on the advanced state. -/
theorem step_running {s : State} (h : s.status = .running) :
    step s = match fetchInstr s with
      | .error f => raise f s
      | .ok i => exec i s.advance := by
  cases hf : fetchInstr s <;> simp [step, h, hf]

theorem step_faulted {s : State} {f : Fault} (h : s.status = .faulted f) : step s = .fault f := by
  rw [step, h]

/-- Everything a step that answers a next state can be: a running machine took a fault of fetch or decode, or ran the
fetched instruction. -/
theorem step_cases {s t : State} (h : step s = .next t) :
    s.status = .running ∧
      ((∃ f, fetchInstr s = .error f ∧ t = s.takeFault f) ∨ ∃ i, fetchInstr s = .ok i ∧ exec i s.advance = .next t) := by
  cases hs : s.status with
  | faulted f => rw [step_faulted hs] at h; cases h
  | running =>
    rw [step_running hs] at h
    refine ⟨rfl, ?_⟩
    cases hf : fetchInstr s with
    | error f => rw [hf] at h; cases h; exact .inl ⟨f, rfl, rfl⟩
    | ok i => rw [hf] at h; exact .inr ⟨i, rfl, h⟩

end Sys2Proof.Machine
end

