-- ==== Sys2Proof/Laws/Commands.lean ====
section
/-!
SUPPORT. What the host commands' operations give, and how a fetch sees memory after a store.
-/

namespace Sys2Proof.Machine

open Sys2Proof

/-- Copying an image keeps memory canonical, puts each byte at its place and leaves every other byte (70_reset_and_hazards.md
R252). -/
theorem copyImage_spec : ∀ (bs : List Byte) (m : Memory) (a : Nat), m.wf → a + bs.length ≤ 4096 →
    (copyImage a bs m).wf ∧ ∀ c, (copyImage a bs m).byteAt c =
      if a ≤ c ∧ c < a + bs.length then bs.getD (c - a) 0 else m.byteAt c := by
  intro bs
  induction bs with
  | nil => intro m a hm _; exact ⟨hm, fun c => by rw [if_neg (by simp only [List.length_nil]; omega)]; rfl⟩
  | cons b bs ih =>
    intro m a hm h
    simp only [List.length_cons] at h
    obtain ⟨h1, h2⟩ := ih (m.write a b) (a+1) (Memory.write_wf hm (by rw [memSize_eq]; omega) b) (by omega)
    refine ⟨h1, fun c => ?_⟩
    rw [copyImage, h2, Memory.byteAt_write hm]
    simp only [List.length_cons]
    by_cases hc : c = a
    · subst hc; rw [if_neg (by omega), if_pos rfl, if_pos (by omega), Nat.sub_self, List.getD_cons_zero]
    · by_cases hr : a + 1 ≤ c ∧ c < a + 1 + bs.length
      · rw [if_pos hr, if_pos (by omega), show c - a = (c - (a + 1)) + 1 by omega, List.getD_cons_succ]
      · rw [if_neg hr, if_neg hc, if_neg (by omega)]

/-- One tick of a timer, as a number (60_exceptions.md R224). -/
theorem countDown_toNat (b : Byte) : (countDown b).toNat = if 0 < b.toNat then b.toNat - 1 else 0 := by
  unfold countDown
  split
  · next h => subst h; rfl
  · next h =>
    have h1 : b.toNat ≠ 0 := fun h' => h (BitVec.eq_of_toNat_eq h')
    have := b.isLt
    rw [if_pos (by omega), BitVec.toNat_sub]; simp; omega

/-- Memory that holds the stored bytes, and elsewhere what it held, is what every fetch sees (20_memory.md R64). -/
theorem fetchSees_of_byteAt {stored : Nat → Option Byte} {s t : State}
    (h : ∀ a, a < 4096 → t.mem.byteAt a = (stored a).getD (s.mem.byteAt a)) : FetchSees stored s t := by
  intro p hp
  rw [fetchBytes_ok (s := { t with pc := p }) hp]
  change Except.ok (t.mem.byteAt p.toNat, t.mem.byteAt (p.toNat + 1)) = _
  rw [h _ (by omega), h _ hp]

end Sys2Proof.Machine
end

