-- ==== Sys2Proof/Laws/Operands.lean ====
section
/-!
SUPPORT. What each operand form and flag computation gives, said once: targets, register ranges, keypad lookups, stores and
loads through I, and the flags.
-/

namespace Sys2Proof.Machine

open Sys2Proof

/-! ### Immediates and addresses -/

@[simp] theorem immTarget_toNat (nnn : BitVec 12) : (immTarget nnn).toNat = nnn.toNat := by
  have := nnn.isLt
  simp only [immTarget, BitVec.toNat_setWidth]
  omega

/-- The target of `Bnnn` never wraps (40_control_flow.md R107). -/
theorem indexedTarget_toNat (s : State) (nnn : BitVec 12) :
    (indexedTarget s nnn).toNat = nnn.toNat + s.v[0].toNat := by
  have := nnn.isLt
  have := s.v[0].isLt
  change (immTarget nnn + s.v[0].setWidth 16).toNat = _
  simp only [BitVec.toNat_add, immTarget_toNat, BitVec.toNat_setWidth]
  omega

theorem glyphAddr_toNat (b : Byte) : (glyphAddr b).toNat = 0x050 + 5 * (b.toNat % 16) := by
  have h : (b &&& 0x0F).toNat = b.toNat % 16 := by
    rw [BitVec.toNat_and]
    exact Nat.and_two_pow_sub_one_eq_mod b.toNat 4
  simp only [glyphAddr, BitVec.toNat_ofNat, h, Config.fontBase, Config.glyphBytes]
  omega

/-! ### Flags -/

theorem flagByte_toNat (c : Bool) : (flagByte c).toNat = if c = true then 1 else 0 := by cases c <;> rfl

/-! ### Registers -/

/-- A register write, read back at any register. -/
theorem setV_get (s : State) (x : RegIndex) (b : Byte) (j : RegIndex) :
    (s.setV x b).v[j] = if j = x then b else s.v[j] := by
  change (s.v.set x.val b)[j.val] = _
  rw [Vector.getElem_set]
  simp only [Fin.ext_iff, eq_comm]
  rfl

/-- A flag write, read back at any register. -/
theorem setFlag_get (s : State) (c : Bool) (j : RegIndex) :
    (s.setFlag c).v[j] = if j = vf then flagByte c else s.v[j] :=
  setV_get s vf (flagByte c) j

/-! ### Register ranges -/

theorem regsThrough_length (s : State) (x : RegIndex) : (regsThrough s x).length = x.val + 1 := by
  have := x.isLt
  simp only [regsThrough, List.length_take, Vector.length_toList]
  omega

/-- The j-th byte of the range V0..Vx is Vj. -/
theorem regsThrough_getD (s : State) (x j : RegIndex) (h : j ≤ x) : (regsThrough s x).getD j.val 0 = s.v[j] := by
  have hj := j.isLt
  have hx := x.isLt
  have hjx : j.val ≤ x.val := h
  simp [regsThrough, Nat.lt_succ_of_le hjx]

/-- A loaded range: the bytes where the range lies, the old registers elsewhere. -/
theorem loadFrom_get (bs : List Byte) (k : Nat) (v : Vector Byte 16) (j : Fin 16) :
    (loadFrom k bs v)[j] = if k ≤ j.val ∧ j.val < k + bs.length then bs.getD (j.val - k) 0 else v[j] := by
  induction bs generalizing k v with
  | nil => rw [if_neg (by simp only [List.length_nil]; omega)]; rfl
  | cons b bs ih =>
    rw [loadFrom, ih]
    simp only [List.length_cons]
    by_cases hj : j.val = k
    · subst hj
      rw [if_neg (by omega), if_pos (by omega), Nat.sub_self, List.getD_cons_zero]
      simp
    · by_cases hr : k + 1 ≤ j.val ∧ j.val < k + 1 + bs.length
      · rw [if_pos hr, if_pos (by omega), show j.val - k = (j.val - (k + 1)) + 1 by omega, List.getD_cons_succ]
      · rw [if_neg hr, if_neg (by omega)]
        simp [Ne.symm hj]

/-! ### Stores and loads through I -/

/-- A store through I that stays in memory: the bytes in order from I, every other byte as before, memory canonical. -/
theorem storeAtI_ok {s : State} (hm : s.mem.wf) {bs : List Byte} (h : s.i.toNat + bs.length ≤ 4096) :
    ∃ m, storeAtI s bs = .ok (s.setMem m) ∧ m.wf ∧
      ∀ c, m.byteAt c = if s.i.toNat ≤ c ∧ c < s.i.toNat + bs.length then bs.getD (c - s.i.toNat) 0 else s.mem.byteAt c := by
  obtain ⟨m, h1, h2, h3⟩ := writeBytes_ok hm (a := s.i.toNat) (bs := bs) (.inr h)
  exact ⟨m, by simp only [storeAtI, dataAddr, Nat.add_zero, h1], h2, h3⟩

/-- Whatever memory holds, an in-range store through I completes. -/
theorem storeAtI_completes (s : State) {bs : List Byte} (h : s.i.toNat + bs.length ≤ 4096) :
    ∃ m, storeAtI s bs = .ok (s.setMem m) := by
  have go : ∀ (bs : List Byte) (m : Memory) (a : Nat), a + bs.length ≤ 4096 → ∃ m', writeBytes m a bs = .ok m' := by
    intro bs
    induction bs with
    | nil => intro m a _; exact ⟨m, rfl⟩
    | cons b bs ih =>
      intro m a h
      simp only [List.length_cons] at h
      rw [writeBytes, memWrite_ok (by omega)]
      exact ih _ _ (by omega)
  obtain ⟨m, hm⟩ := go bs s.mem s.i.toNat h
  exact ⟨m, by simp only [storeAtI, dataAddr, Nat.add_zero, hm]⟩

/-- A store through I that leaves memory records the first out-of-range address (60_exceptions.md R214). -/
theorem storeAtI_error {s : State} {bs : List Byte} (hb : bs ≠ []) (h : 4096 < s.i.toNat + bs.length) :
    storeAtI s bs = .error (.memoryOutOfRange (max s.i.toNat 4096)) := by
  simp only [storeAtI, dataAddr, Nat.add_zero, writeBytes_error s.mem hb h]

/-- A store through I changes memory alone, and keeps it canonical. -/
theorem storeAtI_cases {s t : State} {bs : List Byte} (h : storeAtI s bs = .ok t) :
    ∃ m, t = s.setMem m ∧ (s.mem.wf → m.wf) := by
  simp only [storeAtI] at h
  cases hw : writeBytes s.mem (dataAddr s 0) bs with
  | ok m => rw [hw] at h; cases h; exact ⟨m, rfl, fun hm => writeBytes_wf hm hw⟩
  | error f => rw [hw] at h; cases h

/-- The loaded registers of an in-range `Fx65`. -/
theorem loadAtI_ok {s : State} {x : RegIndex} (h : s.i.toNat + x.val < 4096) :
    ∃ v, loadAtI s x = .ok (s.setRegs v) ∧
      ∀ j : RegIndex, v[j] = if j ≤ x then s.mem.byteAt (s.i.toNat + j.val) else s.v[j] := by
  refine ⟨_, by simp only [loadAtI, dataAddr, Nat.add_zero, readBytes_ok s.mem (.inr (show s.i.toNat + (x.val + 1) ≤ 4096 by omega))]; rfl,
    fun j => ?_⟩
  rw [loadFrom_get]
  simp only [List.length_map, List.length_range]
  by_cases hj : j ≤ x
  · have : j.val ≤ x.val := hj
    rw [if_pos (by omega), if_pos hj]
    simp [Nat.lt_succ_of_le this]
  · have : x.val < j.val := Nat.lt_of_not_le hj
    rw [if_neg (by omega), if_neg hj]

/-- A load through I that leaves memory records the first out-of-range address (60_exceptions.md R214). -/
theorem loadAtI_error {s : State} {x : RegIndex} (h : 4096 ≤ s.i.toNat + x.val) :
    loadAtI s x = .error (.memoryOutOfRange (max s.i.toNat 4096)) := by
  simp only [loadAtI, dataAddr, Nat.add_zero, readBytes_error s.mem (show 1 ≤ x.val + 1 by omega)
    (show 4096 < s.i.toNat + (x.val + 1) by omega)]

/-- A load through I changes the registers alone. -/
theorem loadAtI_cases {s t : State} {x : RegIndex} (h : loadAtI s x = .ok t) : ∃ v, t = s.setRegs v := by
  simp only [loadAtI] at h
  cases hw : readBytes s.mem (dataAddr s 0) (x.val + 1) with
  | ok bs => rw [hw] at h; cases h; exact ⟨_, rfl⟩
  | error f => rw [hw] at h; cases h

/-! ### The call stack -/

/-- A push writes the slot at the old SP and no other. -/
theorem push_stack_get (s : State) (w : Word) (h : s.sp.val < 16) (j : Fin 16) :
    (s.push w h).stack[j] = if j.val = s.sp.val then w else s.stack[j] := by
  change (s.stack.set s.sp.val w)[j.val] = _
  rw [Vector.getElem_set]
  simp only [eq_comm]
  rfl

/-! ### Keypad -/

theorem keyAt_ok {s : State} {v : Byte} {k : Fin 16} (h : v.toNat = k.val) : keyAt s v = .ok s.key[k] := by
  rw [keyAt, dif_pos (by have := k.isLt; omega)]
  congr 1
  simp [h]

theorem keyAt_error {s : State} {v : Byte} (h : 15 < v.toNat) : keyAt s v = .error (.keyIndexOutOfRange v) := by
  rw [keyAt, dif_neg (by omega)]

theorem skipOnKey_ok {s : State} {v : Byte} {k : Fin 16} (h : v.toNat = k.val) (wanted : Bool) :
    skipOnKey s v wanted = .ok (s.skipIf (s.key[k] == wanted)) := by
  simp only [skipOnKey, keyAt_ok h]

theorem skipOnKey_error {s : State} {v : Byte} (h : 15 < v.toNat) (wanted : Bool) :
    skipOnKey s v wanted = .error (.keyIndexOutOfRange v) := by
  simp only [skipOnKey, keyAt_error h]

/-- A key skip is a conditional skip. -/
theorem skipOnKey_cases {s t : State} {v : Byte} {wanted : Bool} (h : skipOnKey s v wanted = .ok t) :
    ∃ c, t = s.skipIf c := by
  simp only [skipOnKey] at h
  cases hk : keyAt s v with
  | ok p => rw [hk] at h; cases h; exact ⟨_, rfl⟩
  | error f => rw [hk] at h; cases h

/-- `lowest_pressed()` is the pressed key with none pressed below it. -/
theorem lowestPressed_some {s : State} {k : Fin 16} (h : s.key[k] = true) (hlow : ∀ j : Fin 16, j < k → s.key[j] = false) :
    lowestPressed s = some k := by
  rw [lowestPressed, List.find?_eq_some_iff_getElem]
  refine ⟨h, k.val, by simp, by simp, fun j hj => ?_⟩
  have := hlow ⟨j, by omega⟩ hj
  simpa using this

theorem lowestPressed_none {s : State} (h : ∀ k : Fin 16, s.key[k] = false) : lowestPressed s = none := by
  rw [lowestPressed, List.find?_eq_none]
  intro k _
  have := h k
  simp_all

end Sys2Proof.Machine
end

