-- ==== Sys2Proof/Laws/Display.lean ====
section
/-!
SUPPORT. What the framebuffer operations do to a cell, and what a draw does: it plots a list of cells, none twice (43_display.md
R171), so each is flipped once, and `collision` and `changed` are over that list (R173).
-/

namespace Sys2Proof.Machine

open Sys2Proof

@[simp] theorem Framebuffer.cell_clear (X : Fin 64) (Y : Fin 32) : Framebuffer.clear.cell X Y = false := by
  simp [Framebuffer.clear, Framebuffer.cell]

/-- A flip inverts its own cell and no other. -/
theorem Framebuffer.cell_flip (fb : Framebuffer) (X : Fin 64) (Y : Fin 32) (X' : Fin 64) (Y' : Fin 32) :
    (fb.flip X Y).cell X' Y' = if X' = X ∧ Y' = Y then !fb.cell X Y else fb.cell X' Y' := by
  by_cases hY : Y' = Y
  · subst hY
    have hrow : (fb.flip X Y')[Y'] = fb[Y'].set X (!fb[Y'][X]) := Vector.getElem_set_self ..
    change (fb.flip X Y')[Y'][X'] = _
    rw [hrow]
    by_cases hX : X' = X
    · subst hX; rw [if_pos ⟨rfl, rfl⟩]; exact Vector.getElem_set_self ..
    · rw [if_neg fun h => hX h.1]; exact Vector.getElem_set_ne _ _ fun h => hX (Fin.ext h.symm)
  · have hrow : (fb.flip X Y)[Y'] = fb[Y'] := Vector.getElem_set_ne _ _ fun h => hY (Fin.ext h.symm)
    change (fb.flip X Y)[Y'][X'] = _
    rw [hrow, if_neg fun h => hY h.2]
    rfl

/-- Two framebuffers with the same cells are equal. -/
theorem Framebuffer.ext_cell {fb fb' : Framebuffer} (h : ∀ X Y, fb.cell X Y = fb'.cell X Y) : fb = fb' := by
  apply Vector.ext; intro y hy
  apply Vector.ext; intro x hx
  exact h ⟨x, hx⟩ ⟨y, hy⟩

/-! ### The plotted cells -/

/-- The cells that columns `c, c + 1, …`, `k` of them, of one sprite row plot. -/
def colPoints (x0 : Nat) (Y : Fin 32) (b : Byte) (c : Nat) : Nat → List (Fin 64 × Fin 32)
  | 0 => []
  | k + 1 => if spriteBit b c then (column (x0 + c), Y) :: colPoints x0 Y b (c + 1) k else colPoints x0 Y b (c + 1) k

/-- The cells that the rows of a sprite from row `r` down plot. -/
def rowPoints (x0 y0 : Nat) (r : Nat) : List Byte → List (Fin 64 × Fin 32)
  | [] => []
  | b :: bs => colPoints x0 (row (y0 + r)) b 0 8 ++ rowPoints x0 y0 (r + 1) bs

/-- Plot every cell of a list. -/
def plotAll (ps : List (Fin 64 × Fin 32)) (cv : Canvas) : Canvas := ps.foldl (fun cv p => plot p.1 p.2 cv) cv

theorem drawCols_eq (x0 : Nat) (Y : Fin 32) (b : Byte) (c k : Nat) (cv : Canvas) :
    drawCols x0 Y b c k cv = plotAll (colPoints x0 Y b c k) cv := by
  induction k generalizing c cv with
  | zero => rfl
  | succ k ih =>
    rw [drawCols, ih, colPoints]
    split <;> rfl

theorem drawRows_eq (x0 y0 r : Nat) (bs : List Byte) (cv : Canvas) :
    drawRows x0 y0 r bs cv = plotAll (rowPoints x0 y0 r bs) cv := by
  induction bs generalizing r cv with
  | nil => rfl
  | cons b bs ih => rw [drawRows, ih, drawCols_eq, rowPoints, plotAll, plotAll, plotAll, List.foldl_append]

theorem mem_colPoints {x0 : Nat} {Y : Fin 32} {b : Byte} {c k : Nat} {p : Fin 64 × Fin 32} :
    p ∈ colPoints x0 Y b c k ↔ ∃ j, c ≤ j ∧ j < c + k ∧ spriteBit b j = true ∧ p = (column (x0 + j), Y) := by
  induction k generalizing c with
  | zero =>
    simp only [colPoints, List.not_mem_nil, false_iff, not_exists]
    rintro j ⟨h1, h2, -⟩
    omega
  | succ k ih =>
    have split_off : (∃ j, c ≤ j ∧ j < c + (k + 1) ∧ spriteBit b j = true ∧ p = (column (x0 + j), Y)) ↔
        (spriteBit b c = true ∧ p = (column (x0 + c), Y)) ∨
          ∃ j, c + 1 ≤ j ∧ j < c + 1 + k ∧ spriteBit b j = true ∧ p = (column (x0 + j), Y) := by
      constructor
      · rintro ⟨j, h1, h2, h3, h4⟩
        by_cases hj : j = c
        · subst hj; exact .inl ⟨h3, h4⟩
        · exact .inr ⟨j, by omega, by omega, h3, h4⟩
      · rintro (⟨h3, h4⟩ | ⟨j, h1, h2, h3, h4⟩)
        · exact ⟨c, by omega, by omega, h3, h4⟩
        · exact ⟨j, by omega, by omega, h3, h4⟩
    rw [split_off, colPoints]
    by_cases hb : spriteBit b c = true
    · simp [hb, ih]
    · simp [hb, ih]

theorem mem_rowPoints {x0 y0 r : Nat} {bs : List Byte} {p : Fin 64 × Fin 32} :
    p ∈ rowPoints x0 y0 r bs ↔
      ∃ j c, j < bs.length ∧ c < 8 ∧ spriteBit (bs.getD j 0) c = true ∧ p = (column (x0 + c), row (y0 + r + j)) := by
  induction bs generalizing r with
  | nil => simp [rowPoints]
  | cons b bs ih =>
    rw [rowPoints, List.mem_append, mem_colPoints, ih]
    constructor
    · rintro (⟨c, -, h2, h3, h4⟩ | ⟨j, c, h1, h2, h3, h4⟩)
      · exact ⟨0, c, by simp, by omega, by simpa using h3, by simpa using h4⟩
      · refine ⟨j + 1, c, by simpa using h1, h2, by simpa using h3, ?_⟩
        rw [h4, show y0 + (r + 1) + j = y0 + r + (j + 1) by omega]
    · rintro ⟨j, c, h1, h2, h3, h4⟩
      cases j with
      | zero => exact .inl ⟨c, by omega, by omega, by simpa using h3, by simpa using h4⟩
      | succ j =>
        refine .inr ⟨j, c, by simpa using h1, h2, by simpa using h3, ?_⟩
        rw [h4, show y0 + (r + 1) + j = y0 + r + (j + 1) by omega]

theorem nodup_colPoints (x0 : Nat) (Y : Fin 32) (b : Byte) {c k : Nat} (hk : k ≤ 64) : (colPoints x0 Y b c k).Nodup := by
  induction k generalizing c with
  | zero => simp [colPoints]
  | succ k ih =>
    rw [colPoints]
    split
    · refine List.nodup_cons.2 ⟨fun h => ?_, ih (by omega)⟩
      obtain ⟨j, h1, h2, -, h4⟩ := mem_colPoints.1 h
      have : (x0 + c) % 64 = (x0 + j) % 64 := congrArg (fun p : Fin 64 × Fin 32 => p.1.val) h4
      omega
    · exact ih (by omega)

/-- No cell is plotted twice in a draw of at most 32 rows (43_display.md R171). -/
theorem nodup_rowPoints (x0 y0 : Nat) {r : Nat} {bs : List Byte} (hb : bs.length ≤ 32) : (rowPoints x0 y0 r bs).Nodup := by
  induction bs generalizing r with
  | nil => simp [rowPoints]
  | cons b bs ih =>
    simp only [List.length_cons] at hb
    rw [rowPoints, List.nodup_append]
    refine ⟨nodup_colPoints _ _ _ (by omega), ih (by omega), fun p hp q hq hpq => ?_⟩
    subst hpq
    obtain ⟨c, -, -, -, h4⟩ := mem_colPoints.1 hp
    obtain ⟨j, c', hj, -, -, h5⟩ := mem_rowPoints.1 hq
    have : (y0 + r) % 32 = (y0 + (r + 1) + j) % 32 :=
      (congrArg (fun p : Fin 64 × Fin 32 => p.2.val) h4).symm.trans (congrArg (fun p : Fin 64 × Fin 32 => p.2.val) h5)
    omega

/-! ### Plotting a list -/

theorem plotAll_changed (ps : List (Fin 64 × Fin 32)) (cv : Canvas) :
    (plotAll ps cv).changed = (cv.changed || !ps.isEmpty) := by
  induction ps generalizing cv with
  | nil => simp [plotAll]
  | cons p ps ih =>
    rw [plotAll, List.foldl_cons, ← plotAll, ih]
    simp [plot]

/-- Each plotted cell is inverted once, every other cell is unchanged. -/
theorem plotAll_cell {ps : List (Fin 64 × Fin 32)} (h : ps.Nodup) (cv : Canvas) (X : Fin 64) (Y : Fin 32) :
    (plotAll ps cv).fb.cell X Y = if (X, Y) ∈ ps then !cv.fb.cell X Y else cv.fb.cell X Y := by
  induction ps generalizing cv with
  | nil => simp [plotAll]
  | cons p ps ih =>
    obtain ⟨hp, hps⟩ := List.nodup_cons.1 h
    rw [plotAll, List.foldl_cons, ← plotAll, ih hps]
    simp only [plot, Framebuffer.cell_flip, List.mem_cons]
    by_cases he : (X, Y) = p
    · subst he; simp [hp]
    · have : ¬ (X = p.1 ∧ Y = p.2) := fun hxy => he (Prod.ext hxy.1 hxy.2)
      simp [he, this]

/-- A collision: one of the plotted cells was on before the draw. -/
theorem plotAll_collision {ps : List (Fin 64 × Fin 32)} (h : ps.Nodup) (cv : Canvas) :
    (plotAll ps cv).collision = true ↔ cv.collision = true ∨ ∃ p ∈ ps, cv.fb.cell p.1 p.2 = true := by
  induction ps generalizing cv with
  | nil => simp [plotAll]
  | cons p ps ih =>
    obtain ⟨hp, hps⟩ := List.nodup_cons.1 h
    rw [plotAll, List.foldl_cons, ← plotAll, ih hps]
    have same : ∀ q ∈ ps, (plot p.1 p.2 cv).fb.cell q.1 q.2 = cv.fb.cell q.1 q.2 := by
      intro q hq
      simp only [plot, Framebuffer.cell_flip]
      refine if_neg fun hxy => hp ?_
      rwa [← show q = p from Prod.ext hxy.1 hxy.2]
    simp only [plot, Bool.or_eq_true, List.mem_cons, exists_eq_or_imp, or_assoc]
    refine or_congr_right (or_congr_right ⟨?_, ?_⟩)
    · rintro ⟨q, hq, h⟩; exact ⟨q, hq, by rw [← same q hq]; exact h⟩
    · rintro ⟨q, hq, h⟩; exact ⟨q, hq, by rw [← same q hq] at h; exact h⟩

/-- The cells a draw of the given rows plots. -/
def spritePoints (vx vy : Byte) (rows : List Byte) : List (Fin 64 × Fin 32) :=
  rowPoints (vx.toNat % 64) (vy.toNat % 32) 0 rows

/-- A draw plots its cells on a canvas with no collision and no change yet. -/
theorem drawSprite_eq (vx vy : Byte) (rows : List Byte) (fb : Framebuffer) :
    drawSprite vx vy rows fb = plotAll (spritePoints vx vy rows) { fb := fb, collision := false, changed := false } :=
  drawRows_eq _ _ _ _ _

theorem nodup_spritePoints (vx vy : Byte) {rows : List Byte} (h : rows.length ≤ 32) : (spritePoints vx vy rows).Nodup :=
  nodup_rowPoints _ _ h

/-- Where a 1-bit lands: its coordinates, each reduced on its own (43_display.md R172). -/
theorem mem_spritePoints {vx vy : Byte} {rows : List Byte} {X : Fin 64} {Y : Fin 32} :
    (X, Y) ∈ spritePoints vx vy rows ↔ ∃ r c, r < rows.length ∧ c < 8 ∧ spriteBit (rows.getD r 0) c = true ∧
      (vx.toNat + c) % 64 = X.val ∧ (vy.toNat + r) % 32 = Y.val := by
  rw [spritePoints, mem_rowPoints]
  constructor
  · rintro ⟨r, c, h1, h2, h3, h4⟩
    have hx : X.val = (vx.toNat % 64 + c) % 64 := congrArg (fun p : Fin 64 × Fin 32 => p.1.val) h4
    have hy : Y.val = (vy.toNat % 32 + 0 + r) % 32 := congrArg (fun p : Fin 64 × Fin 32 => p.2.val) h4
    exact ⟨r, c, h1, h2, h3, by omega, by omega⟩
  · rintro ⟨r, c, h1, h2, h3, h4, h5⟩
    refine ⟨r, c, h1, h2, h3, Prod.ext (Fin.ext ?_) (Fin.ext ?_)⟩
    · change X.val = (vx.toNat % 64 + c) % 64; omega
    · change Y.val = (vy.toNat % 32 + 0 + r) % 32; omega

/-! ### The instruction -/

/-- An in-range `Dxyn` reads its rows and commits the draw (43_display.md R171). -/
theorem execDrw_ok {s : State} {x y : RegIndex} {n : Nat} (h : n = 0 ∨ s.i.toNat + n ≤ 4096) :
    execDrw x y n s = .next (s.commitDraw
      (drawSprite s.v[x] s.v[y] ((List.range n).map fun r => s.mem.byteAt (s.i.toNat + r)) s.fb)) := by
  simp only [execDrw, dataAddr, Nat.add_zero, readBytes_ok s.mem h, State.getV_eq]

/-- A `Dxyn` that leaves memory records the first out-of-range address (60_exceptions.md R214). -/
theorem execDrw_error {s : State} {x y : RegIndex} {n : Nat} (hn : 1 ≤ n) (h : 4096 < s.i.toNat + n) :
    execDrw x y n s = .next (s.takeFault (.memoryOutOfRange (max s.i.toNat 4096))) := by
  simp only [execDrw, dataAddr, Nat.add_zero, readBytes_error s.mem hn h, raise_eq]

/-- Everything a `Dxyn` can do: it commits a draw, or takes a fault. -/
theorem execDrw_cases {s t : State} {x y : RegIndex} {n : Nat} (h : execDrw x y n s = .next t) :
    (∃ cv, t = s.commitDraw cv) ∨ ∃ f, t = s.takeFault f := by
  simp only [execDrw] at h
  cases hr : readBytes s.mem (dataAddr s 0) n with
  | ok rows => rw [hr] at h; cases h; exact .inl ⟨_, rfl⟩
  | error f => rw [hr] at h; cases h; exact .inr ⟨f, rfl⟩

end Sys2Proof.Machine
end

