-- ==== Sys2Proof/Laws/Encoding.lean ====
section
/-!
SUPPORT. What each field accessor reads from each instruction format (30_encoding.md R71, R72), and that the formats are the
numbers `wordNNN`, `wordXKK`, `wordXYN`.
-/

namespace Sys2Proof

/-! ### The formats as numbers -/

theorem formNNN_toNat (t : BitVec 4) (nnn : BitVec 12) : (formNNN t nnn).toNat = t.toNat * 4096 + nnn.toNat := by
  have := nnn.isLt
  rw [formNNN, BitVec.toNat_append, Nat.shiftLeft_eq, Nat.mul_comm, ← Nat.two_pow_add_eq_or_of_lt this]

theorem formXKK_toNat (t : BitVec 4) (x : RegIndex) (kk : Byte) :
    (formXKK t x kk).toNat = t.toNat * 4096 + x.val * 256 + kk.toNat := by
  have := kk.isLt
  have := x.isLt
  rw [formXKK, BitVec.toNat_append, BitVec.toNat_append]
  simp only [Nat.shiftLeft_eq, BitVec.toNat_ofFin]
  rw [Nat.mul_comm t.toNat, ← Nat.two_pow_add_eq_or_of_lt (by omega), Nat.mul_comm _ (2 ^ 8),
    ← Nat.two_pow_add_eq_or_of_lt (by omega)]
  omega

theorem formXYN_toNat (t : BitVec 4) (x y : RegIndex) (n : BitVec 4) :
    (formXYN t x y n).toNat = t.toNat * 4096 + x.val * 256 + y.val * 16 + n.toNat := by
  have := n.isLt
  have := x.isLt
  have := y.isLt
  rw [formXYN, BitVec.toNat_append, BitVec.toNat_append, BitVec.toNat_append]
  simp only [Nat.shiftLeft_eq, BitVec.toNat_ofFin]
  rw [Nat.mul_comm t.toNat, ← Nat.two_pow_add_eq_or_of_lt (by omega), Nat.mul_comm _ (2 ^ 4),
    ← Nat.two_pow_add_eq_or_of_lt (by omega), Nat.mul_comm _ (2 ^ 4), ← Nat.two_pow_add_eq_or_of_lt (by omega)]
  omega

theorem Machine.wordNNN_eq_form (t : BitVec 4) (nnn : BitVec 12) : Machine.wordNNN t.toNat nnn.toNat = formNNN t nnn := by
  rw [Machine.wordNNN, ← formNNN_toNat, BitVec.ofNat_toNat, BitVec.setWidth_eq]

theorem Machine.wordXKK_eq_form (t : BitVec 4) (x : RegIndex) (kk : Byte) :
    Machine.wordXKK t.toNat x.val kk.toNat = formXKK t x kk := by
  rw [Machine.wordXKK, ← formXKK_toNat, BitVec.ofNat_toNat, BitVec.setWidth_eq]

theorem Machine.wordXYN_eq_form (t : BitVec 4) (x y : RegIndex) (n : BitVec 4) :
    Machine.wordXYN t.toNat x.val y.val n.toNat = formXYN t x y n := by
  rw [Machine.wordXYN, ← formXYN_toNat, BitVec.ofNat_toNat, BitVec.setWidth_eq]

/-! ### The fields as arithmetic on the word -/

theorem opTop_toNat (op : Word) : (opTop op).toNat = op.toNat / 4096 := by
  have := op.isLt
  simp only [opTop, BitVec.extractLsb'_toNat, Nat.shiftRight_eq_div_pow]
  omega

theorem opX_val (op : Word) : (opX op).val = op.toNat / 256 % 16 := by
  change (op.extractLsb' 8 4).toNat = _
  simp only [BitVec.extractLsb'_toNat, Nat.shiftRight_eq_div_pow]

theorem opY_val (op : Word) : (opY op).val = op.toNat / 16 % 16 := by
  change (op.extractLsb' 4 4).toNat = _
  simp only [BitVec.extractLsb'_toNat, Nat.shiftRight_eq_div_pow]

theorem opN_toNat (op : Word) : (opN op).toNat = op.toNat % 16 := by
  simp only [opN, BitVec.extractLsb'_toNat, Nat.shiftRight_eq_div_pow]
  omega

theorem opKK_toNat (op : Word) : (opKK op).toNat = op.toNat % 256 := by
  simp only [opKK, BitVec.extractLsb'_toNat, Nat.shiftRight_eq_div_pow]
  omega

theorem opNNN_toNat (op : Word) : (opNNN op).toNat = op.toNat % 4096 := by
  simp only [opNNN, BitVec.extractLsb'_toNat, Nat.shiftRight_eq_div_pow]
  omega

/-! ### The fields of each format -/

@[simp] theorem opTop_formNNN (t : BitVec 4) (nnn : BitVec 12) : opTop (formNNN t nnn) = t := by
  have := nnn.isLt; have := t.isLt
  apply BitVec.eq_of_toNat_eq; rw [opTop_toNat, formNNN_toNat]; omega

@[simp] theorem opNNN_formNNN (t : BitVec 4) (nnn : BitVec 12) : opNNN (formNNN t nnn) = nnn := by
  have := nnn.isLt
  apply BitVec.eq_of_toNat_eq; rw [opNNN_toNat, formNNN_toNat]; omega

@[simp] theorem opTop_formXKK (t : BitVec 4) (x : RegIndex) (kk : Byte) : opTop (formXKK t x kk) = t := by
  have := kk.isLt; have := x.isLt
  apply BitVec.eq_of_toNat_eq; rw [opTop_toNat, formXKK_toNat]; omega

@[simp] theorem opX_formXKK (t : BitVec 4) (x : RegIndex) (kk : Byte) : opX (formXKK t x kk) = x := by
  have := kk.isLt; have := x.isLt
  apply Fin.ext; rw [opX_val, formXKK_toNat]; omega

@[simp] theorem opKK_formXKK (t : BitVec 4) (x : RegIndex) (kk : Byte) : opKK (formXKK t x kk) = kk := by
  have := kk.isLt
  apply BitVec.eq_of_toNat_eq; rw [opKK_toNat, formXKK_toNat]; omega

@[simp] theorem opTop_formXYN (t : BitVec 4) (x y : RegIndex) (n : BitVec 4) : opTop (formXYN t x y n) = t := by
  have := n.isLt; have := x.isLt; have := y.isLt
  apply BitVec.eq_of_toNat_eq; rw [opTop_toNat, formXYN_toNat]; omega

@[simp] theorem opX_formXYN (t : BitVec 4) (x y : RegIndex) (n : BitVec 4) : opX (formXYN t x y n) = x := by
  have := n.isLt; have := x.isLt; have := y.isLt
  apply Fin.ext; rw [opX_val, formXYN_toNat]; omega

@[simp] theorem opY_formXYN (t : BitVec 4) (x y : RegIndex) (n : BitVec 4) : opY (formXYN t x y n) = y := by
  have := n.isLt; have := y.isLt
  apply Fin.ext; rw [opY_val, formXYN_toNat]; omega

@[simp] theorem opN_formXYN (t : BitVec 4) (x y : RegIndex) (n : BitVec 4) : opN (formXYN t x y n) = n := by
  have := n.isLt
  apply BitVec.eq_of_toNat_eq; rw [opN_toNat, formXYN_toNat]; omega

/-! ### Bytes of a word -/

theorem wordOfBytes_toNat (hi lo : Byte) : (wordOfBytes hi lo).toNat = 256 * hi.toNat + lo.toNat := by
  have := lo.isLt
  rw [wordOfBytes, BitVec.toNat_append, Nat.shiftLeft_eq, Nat.mul_comm, ← Nat.two_pow_add_eq_or_of_lt this]

theorem hiByte_toNat (op : Word) : (hiByte op).toNat = op.toNat / 256 := by
  have := op.isLt
  simp only [hiByte, BitVec.extractLsb'_toNat, Nat.shiftRight_eq_div_pow]
  omega

theorem loByte_toNat (op : Word) : (loByte op).toNat = op.toNat % 256 := by
  simp only [loByte, BitVec.extractLsb'_toNat, Nat.shiftRight_eq_div_pow]
  omega

/-- A word is its two bytes, high byte first (30_encoding.md R70). -/
@[simp] theorem wordOfBytes_split (op : Word) : wordOfBytes (hiByte op) (loByte op) = op := by
  apply BitVec.eq_of_toNat_eq; rw [wordOfBytes_toNat, hiByte_toNat, loByte_toNat]; omega

@[simp] theorem hiByte_wordOfBytes (hi lo : Byte) : hiByte (wordOfBytes hi lo) = hi := by
  have := lo.isLt
  apply BitVec.eq_of_toNat_eq; rw [hiByte_toNat, wordOfBytes_toNat]; omega

@[simp] theorem loByte_wordOfBytes (hi lo : Byte) : loByte (wordOfBytes hi lo) = lo := by
  have := lo.isLt
  apply BitVec.eq_of_toNat_eq; rw [loByte_toNat, wordOfBytes_toNat]; omega

/-- The decoder's answer, by the opcode map. -/
theorem decode_ok_iff {hi lo : Byte} {i : Instr} :
    decode hi lo = .ok i ↔ decodeWord (wordOfBytes hi lo) = some i := by
  unfold decode
  cases decodeWord (wordOfBytes hi lo) <;> simp

theorem decode_error_iff {hi lo : Byte} {e : DecodeError} :
    decode hi lo = .error e ↔ decodeWord (wordOfBytes hi lo) = none ∧ e = .unknownOpcode (wordOfBytes hi lo) := by
  unfold decode
  cases decodeWord (wordOfBytes hi lo) <;> simp [eq_comm]

end Sys2Proof
end

