-- ==== Sys2Proof/Laws/Exec.lean ====
section
/-!
SUPPORT. What an instruction can do to the state, said once: every way `exec` answers a next state, by the named updates.
Invariants and whole-machine rules are derived from it.
-/

namespace Sys2Proof.Machine

open Sys2Proof

/-- The shape of a next state of `exec`: which updates of the state led to it. -/
inductive Effect (s : State) : Instr → State → Prop
  | fault (i : Instr) (f : Fault) : Effect s i (s.takeFault f)
  | cls : Effect s .cls ((s.setFb Framebuffer.clear).setRedraw true)
  | ret (h : 0 < s.sp.val) : Effect s .ret ((s.pop h).setPc (s.top h))
  | jp (nnn : BitVec 12) : Effect s (.jp nnn) (s.setPc (immTarget nnn))
  | call (nnn : BitVec 12) (h : s.sp.val < 16) : Effect s (.call nnn) ((s.push s.pc h).setPc (immTarget nnn))
  | jpV0 (nnn : BitVec 12) : Effect s (.jpV0 nnn) (s.setPc (indexedTarget s nnn))
  | skip (i : Instr) (c : Bool) : Effect s i (s.skipIf c)
  | wait (x : RegIndex) (h : lowestPressed s = none) : Effect s (.ldVxK x) (s.setPc (s.pc - 2))
  | reg (i : Instr) (x : RegIndex) (b : Byte)
      (h : i = .ldVxDt x ∨ i = .ldVxK x ∨ (∃ kk, i = .ldImm x kk ∨ i = .addImm x kk) ∨
        ∃ y, i = .ldReg x y ∨ i = .orReg x y ∨ i = .andReg x y ∨ i = .xorReg x y) : Effect s i (s.setV x b)
  | flagged (i : Instr) (x : RegIndex) (b : Byte) (c : Bool)
      (h : ∃ y, i = .addReg x y ∨ i = .subReg x y ∨ i = .subnReg x y) : Effect s i ((s.setV x b).setFlag c)
  | shifted (i : Instr) (x : RegIndex) (b : Byte) (c : Bool)
      (h : ∃ y, i = .shr x y ∨ i = .shl x y) : Effect s i ((s.setFlag c).setV x b)
  | random (x : RegIndex) (kk b : Byte) : Effect s (.rnd x kk) ((s.setV x b).drawn)
  | index (i : Instr) (w : Word) (h : (∃ nnn, i = .ldI nnn) ∨ (∃ x, i = .addI x) ∨ ∃ x, i = .ldF x) :
      Effect s i (s.setI w)
  | dt (x : RegIndex) (b : Byte) : Effect s (.ldDtVx x) (s.setDt b)
  | st (x : RegIndex) (b : Byte) : Effect s (.ldStVx x) (s.setSt b)
  | store (i : Instr) (m : Memory) (hm : s.mem.wf → m.wf) (h : (∃ x, i = .ldB x) ∨ ∃ x, i = .storeRegs x) :
      Effect s i (s.setMem m)
  | loaded (x : RegIndex) (v : Vector Byte 16) (h : ∀ j : RegIndex, x < j → v[j] = s.v[j]) :
      Effect s (.loadRegs x) (s.setRegs v)
  | draw (x y : RegIndex) (n : Nat) (cv : Canvas) : Effect s (.drw x y n) (s.commitDraw cv)

/-- Every next state `exec` answers has one of these shapes. -/
theorem exec_effect {i : Instr} {s t : State} (h : exec i s = .next t) : Effect s i t := by
  cases i
  case ret =>
    simp only [exec, execRet] at h
    split at h <;> cases h
    · exact .ret _
    · exact .fault _ _
  case call nnn =>
    simp only [exec, execCall] at h
    split at h <;> cases h
    · exact .call _ _
    · exact .fault _ _
  case ldVxK x =>
    simp only [exec, execLdVxK] at h
    split at h <;> cases h
    · exact .reg _ _ _ (.inr (.inl rfl))
    · exact .wait _ ‹_›
  case skp x =>
    rcases finish_cases (show finish s (skipOnKey s (s.getV x) true) = .next t from h) with h | ⟨f, -, rfl⟩
    · obtain ⟨c, rfl⟩ := skipOnKey_cases h; exact .skip _ _
    · exact .fault _ _
  case sknp x =>
    rcases finish_cases (show finish s (skipOnKey s (s.getV x) false) = .next t from h) with h | ⟨f, -, rfl⟩
    · obtain ⟨c, rfl⟩ := skipOnKey_cases h; exact .skip _ _
    · exact .fault _ _
  case ldB x =>
    rcases finish_cases (show finish s (storeAtI s (bcdDigits (s.getV x))) = .next t from h) with h | ⟨f, -, rfl⟩
    · obtain ⟨m, rfl, hm⟩ := storeAtI_cases h; exact .store _ _ hm (.inl ⟨_, rfl⟩)
    · exact .fault _ _
  case storeRegs x =>
    rcases finish_cases (show finish s (storeAtI s (regsThrough s x)) = .next t from h) with h | ⟨f, -, rfl⟩
    · obtain ⟨m, rfl, hm⟩ := storeAtI_cases h; exact .store _ _ hm (.inr ⟨_, rfl⟩)
    · exact .fault _ _
  case loadRegs x =>
    rcases finish_cases (show finish s (loadAtI s x) = .next t from h) with h | ⟨f, -, rfl⟩
    · by_cases hr : s.i.toNat + x.val < 4096
      · obtain ⟨v, hv, hj⟩ := loadAtI_ok hr
        rw [hv] at h
        cases h
        exact .loaded _ _ fun j hxj => by rw [hj, if_neg (Fin.not_le.2 hxj)]
      · rw [loadAtI_error (by omega)] at h; cases h
    · exact .fault _ _
  case drw x y n =>
    rcases execDrw_cases h with ⟨cv, rfl⟩ | ⟨f, rfl⟩
    · exact .draw _ _ _ _
    · exact .fault _ _
  case cls => cases h; exact .cls
  case jp => cases h; exact .jp _
  case jpV0 => cases h; exact .jpV0 _
  case seImm => cases h; exact .skip _ _
  case sneImm => cases h; exact .skip _ _
  case seReg => cases h; exact .skip _ _
  case sneReg => cases h; exact .skip _ _
  case ldImm => cases h; exact .reg _ _ _ (.inr (.inr (.inl ⟨_, .inl rfl⟩)))
  case addImm => cases h; exact .reg _ _ _ (.inr (.inr (.inl ⟨_, .inr rfl⟩)))
  case ldReg => cases h; exact .reg _ _ _ (.inr (.inr (.inr ⟨_, .inl rfl⟩)))
  case orReg => cases h; exact .reg _ _ _ (.inr (.inr (.inr ⟨_, .inr (.inl rfl)⟩)))
  case andReg => cases h; exact .reg _ _ _ (.inr (.inr (.inr ⟨_, .inr (.inr (.inl rfl))⟩)))
  case xorReg => cases h; exact .reg _ _ _ (.inr (.inr (.inr ⟨_, .inr (.inr (.inr rfl))⟩)))
  case ldVxDt => cases h; exact .reg _ _ _ (.inl rfl)
  case addReg => cases h; exact .flagged _ _ _ _ ⟨_, .inl rfl⟩
  case subReg => cases h; exact .flagged _ _ _ _ ⟨_, .inr (.inl rfl)⟩
  case subnReg => cases h; exact .flagged _ _ _ _ ⟨_, .inr (.inr rfl)⟩
  case shr => cases h; exact .shifted _ _ _ _ ⟨_, .inl rfl⟩
  case shl => cases h; exact .shifted _ _ _ _ ⟨_, .inr rfl⟩
  case rnd => cases h; exact .random _ _ _
  case ldI => cases h; exact .index _ _ (.inl ⟨_, rfl⟩)
  case addI => cases h; exact .index _ _ (.inr (.inl ⟨_, rfl⟩))
  case ldF => cases h; exact .index _ _ (.inr (.inr ⟨_, rfl⟩))
  case ldDtVx => cases h; exact .dt _ _
  case ldStVx => cases h; exact .st _ _

end Sys2Proof.Machine
end

