-- ==== Sys2Proof/Laws/PerInstr.lean ====
section
/-!
SUPPORT. The family `TableRow`: the word of an instruction lies in its row of spec/opcode_table.json, `word & mask = match`.
One lemma per constructor of `Instr`.
-/

namespace Sys2Proof.Laws.TableRow

open Sys2Proof

/-- The column `mask` of the instruction's row of spec/opcode_table.json. -/
def mask : Instr → Word
  | .cls | .ret => 0xFFFF
  | .jp _ | .call _ | .seImm _ _ | .sneImm _ _ | .ldImm _ _ | .addImm _ _ | .ldI _ | .jpV0 _ | .rnd _ _
  | .drw _ _ _ => 0xF000
  | .seReg _ _ | .ldReg _ _ | .orReg _ _ | .andReg _ _ | .xorReg _ _ | .addReg _ _ | .subReg _ _ | .shr _ _
  | .subnReg _ _ | .shl _ _ | .sneReg _ _ => 0xF00F
  | .skp _ | .sknp _ | .ldVxDt _ | .ldVxK _ | .ldDtVx _ | .ldStVx _ | .addI _ | .ldF _ | .ldB _ | .storeRegs _
  | .loadRegs _ => 0xF0FF

/-- The column `match` of the instruction's row of spec/opcode_table.json. -/
def pattern : Instr → Word
  | .cls => 0x00E0
  | .ret => 0x00EE
  | .jp _ => 0x1000
  | .call _ => 0x2000
  | .seImm _ _ => 0x3000
  | .sneImm _ _ => 0x4000
  | .seReg _ _ => 0x5000
  | .ldImm _ _ => 0x6000
  | .addImm _ _ => 0x7000
  | .ldReg _ _ => 0x8000
  | .orReg _ _ => 0x8001
  | .andReg _ _ => 0x8002
  | .xorReg _ _ => 0x8003
  | .addReg _ _ => 0x8004
  | .subReg _ _ => 0x8005
  | .shr _ _ => 0x8006
  | .subnReg _ _ => 0x8007
  | .shl _ _ => 0x800E
  | .sneReg _ _ => 0x9000
  | .ldI _ => 0xA000
  | .jpV0 _ => 0xB000
  | .rnd _ _ => 0xC000
  | .drw _ _ _ => 0xD000
  | .skp _ => 0xE09E
  | .sknp _ => 0xE0A1
  | .ldVxDt _ => 0xF007
  | .ldVxK _ => 0xF00A
  | .ldDtVx _ => 0xF015
  | .ldStVx _ => 0xF018
  | .addI _ => 0xF01E
  | .ldF _ => 0xF029
  | .ldB _ => 0xF033
  | .storeRegs _ => 0xF055
  | .loadRegs _ => 0xF065

/-- The encoded word matches its row. -/
def Statement (i : Instr) : Prop := encode i &&& mask i = pattern i

/-- Format `nnn`: the mask 0xF000 keeps the top nibble. -/
theorem formNNN_mask (t : BitVec 4) (nnn : BitVec 12) : formNNN t nnn &&& 0xF000 = t ++ 0#12 := by
  rw [show (0xF000 : Word) = BitVec.allOnes 4 ++ 0#12 by decide, formNNN, BitVec.and_append]
  simp only [BitVec.and_allOnes, BitVec.and_zero]

/-- Format `xkk`: the mask 0xF000 keeps the top nibble. -/
theorem formXKK_mask (t : BitVec 4) (x : RegIndex) (kk : Byte) :
    formXKK t x kk &&& 0xF000 = t ++ 0#4 ++ 0#8 := by
  rw [show (0xF000 : Word) = BitVec.allOnes 4 ++ 0#4 ++ 0#8 by decide, formXKK, BitVec.and_append,
    BitVec.and_append]
  simp only [BitVec.and_allOnes, BitVec.and_zero]

/-- Format `x_func`: the mask 0xF0FF keeps the top nibble and the function byte. -/
theorem formXKK_mask_func (t : BitVec 4) (x : RegIndex) (kk : Byte) :
    formXKK t x kk &&& 0xF0FF = t ++ 0#4 ++ kk := by
  rw [show (0xF0FF : Word) = BitVec.allOnes 4 ++ 0#4 ++ BitVec.allOnes 8 by decide, formXKK, BitVec.and_append,
    BitVec.and_append]
  simp only [BitVec.and_allOnes, BitVec.and_zero]

/-- Format `xyn`: the mask 0xF000 keeps the top nibble. -/
theorem formXYN_mask (t : BitVec 4) (x y : RegIndex) (n : BitVec 4) :
    formXYN t x y n &&& 0xF000 = t ++ 0#4 ++ 0#4 ++ 0#4 := by
  rw [show (0xF000 : Word) = BitVec.allOnes 4 ++ 0#4 ++ 0#4 ++ 0#4 by decide, formXYN,
    BitVec.and_append, BitVec.and_append, BitVec.and_append]
  simp only [BitVec.and_allOnes, BitVec.and_zero]

/-- Format `xy_func`: the mask 0xF00F keeps the top nibble and the function nibble. -/
theorem formXYN_mask_func (t : BitVec 4) (x y : RegIndex) (n : BitVec 4) :
    formXYN t x y n &&& 0xF00F = t ++ 0#4 ++ 0#4 ++ n := by
  rw [show (0xF00F : Word) = BitVec.allOnes 4 ++ 0#4 ++ 0#4 ++ BitVec.allOnes 4 by decide, formXYN,
    BitVec.and_append, BitVec.and_append, BitVec.and_append]
  simp only [BitVec.and_allOnes, BitVec.and_zero]

theorem cls : Statement (.cls) := by
  rfl

theorem ret : Statement (.ret) := by
  rfl

theorem jp (nnn : BitVec 12) : Statement (.jp nnn) := by
  exact (formNNN_mask _ _).trans rfl

theorem call (nnn : BitVec 12) : Statement (.call nnn) := by
  exact (formNNN_mask _ _).trans rfl

theorem seImm (x : RegIndex) (kk : Byte) : Statement (.seImm x kk) := by
  exact (formXKK_mask _ _ _).trans rfl

theorem sneImm (x : RegIndex) (kk : Byte) : Statement (.sneImm x kk) := by
  exact (formXKK_mask _ _ _).trans rfl

theorem seReg (x y : RegIndex) : Statement (.seReg x y) := by
  exact (formXYN_mask_func _ _ _ _).trans rfl

theorem ldImm (x : RegIndex) (kk : Byte) : Statement (.ldImm x kk) := by
  exact (formXKK_mask _ _ _).trans rfl

theorem addImm (x : RegIndex) (kk : Byte) : Statement (.addImm x kk) := by
  exact (formXKK_mask _ _ _).trans rfl

theorem ldReg (x y : RegIndex) : Statement (.ldReg x y) := by
  exact (formXYN_mask_func _ _ _ _).trans rfl

theorem orReg (x y : RegIndex) : Statement (.orReg x y) := by
  exact (formXYN_mask_func _ _ _ _).trans rfl

theorem andReg (x y : RegIndex) : Statement (.andReg x y) := by
  exact (formXYN_mask_func _ _ _ _).trans rfl

theorem xorReg (x y : RegIndex) : Statement (.xorReg x y) := by
  exact (formXYN_mask_func _ _ _ _).trans rfl

theorem addReg (x y : RegIndex) : Statement (.addReg x y) := by
  exact (formXYN_mask_func _ _ _ _).trans rfl

theorem subReg (x y : RegIndex) : Statement (.subReg x y) := by
  exact (formXYN_mask_func _ _ _ _).trans rfl

theorem shr (x y : RegIndex) : Statement (.shr x y) := by
  exact (formXYN_mask_func _ _ _ _).trans rfl

theorem subnReg (x y : RegIndex) : Statement (.subnReg x y) := by
  exact (formXYN_mask_func _ _ _ _).trans rfl

theorem shl (x y : RegIndex) : Statement (.shl x y) := by
  exact (formXYN_mask_func _ _ _ _).trans rfl

theorem sneReg (x y : RegIndex) : Statement (.sneReg x y) := by
  exact (formXYN_mask_func _ _ _ _).trans rfl

theorem ldI (nnn : BitVec 12) : Statement (.ldI nnn) := by
  exact (formNNN_mask _ _).trans rfl

theorem jpV0 (nnn : BitVec 12) : Statement (.jpV0 nnn) := by
  exact (formNNN_mask _ _).trans rfl

theorem rnd (x : RegIndex) (kk : Byte) : Statement (.rnd x kk) := by
  exact (formXKK_mask _ _ _).trans rfl

theorem drw (x y : RegIndex) (n : Nat) : Statement (.drw x y n) := by
  exact (formXYN_mask _ _ _ _).trans rfl

theorem skp (x : RegIndex) : Statement (.skp x) := by
  exact (formXKK_mask_func _ _ _).trans rfl

theorem sknp (x : RegIndex) : Statement (.sknp x) := by
  exact (formXKK_mask_func _ _ _).trans rfl

theorem ldVxDt (x : RegIndex) : Statement (.ldVxDt x) := by
  exact (formXKK_mask_func _ _ _).trans rfl

theorem ldVxK (x : RegIndex) : Statement (.ldVxK x) := by
  exact (formXKK_mask_func _ _ _).trans rfl

theorem ldDtVx (x : RegIndex) : Statement (.ldDtVx x) := by
  exact (formXKK_mask_func _ _ _).trans rfl

theorem ldStVx (x : RegIndex) : Statement (.ldStVx x) := by
  exact (formXKK_mask_func _ _ _).trans rfl

theorem addI (x : RegIndex) : Statement (.addI x) := by
  exact (formXKK_mask_func _ _ _).trans rfl

theorem ldF (x : RegIndex) : Statement (.ldF x) := by
  exact (formXKK_mask_func _ _ _).trans rfl

theorem ldB (x : RegIndex) : Statement (.ldB x) := by
  exact (formXKK_mask_func _ _ _).trans rfl

theorem storeRegs (x : RegIndex) : Statement (.storeRegs x) := by
  exact (formXKK_mask_func _ _ _).trans rfl

theorem loadRegs (x : RegIndex) : Statement (.loadRegs x) := by
  exact (formXKK_mask_func _ _ _).trans rfl

end Sys2Proof.Laws.TableRow
end

