-- ==== Sys2Proof/Tests/Slice0.lean ====
section
/-!
SUPPORT. Tests. Expected words are written out from the formats of 30_encoding.md R72 and the patterns of R75, expected
results are the spec's own vectors (95_test_vectors.md, whose id each test names) or hand calculation from the cited rule.
The last part shows, for every statement that has hypotheses, a state and operands that meet them.
-/

namespace Sys2Proof.Tests

open Sys2Proof Sys2Proof.Machine

/-- The reset state with some registers loaded. -/
def regs (rs : List (RegIndex × Byte)) : State := rs.foldl (fun s p => s.setV p.1 p.2) State.reset

/-- Bytes stored from an address up. -/
def bytes (s : State) (a : Nat) (bs : List Byte) : State := s.setMem (copyImage a bs s.mem)

/-- The state after one step at a word placed where it is fetched. -/
def after (s : State) (w : Nat) : Option State :=
  match step (s.withFetchWord 16 w) with
  | .next t => some t
  | .fault _ => none
  | .refused _ => none

/-- What the instruction alone answers, in the state it is given. -/
def ran (i : Instr) (s : State) : Option State :=
  match exec i s with
  | .next t => some t
  | .fault _ => none
  | .refused _ => none

/-- The state a command leaves. -/
def afterCommand (c : Command) (s : State) : Option (State × Reply) :=
  match command c s with
  | .next p => some p
  | .fault _ => none
  | .refused _ => none

/-- The instruction of a word, by the decoder over its two bytes. -/
def decoded (hi lo : Byte) : Option Instr :=
  match decode hi lo with
  | .ok i => some i
  | .error _ => none

/-! ### Well-formedness -/

/-- A row count of 16 has no encoding (30_encoding.md R71, R73). -/
theorem test_wellFormed_refuses_sixteen_rows : wellFormed (.drw 0 0 16) = false := by decide

theorem test_wellFormed_accepts_fifteen_rows : wellFormed (.drw 0 0 15) = true := by decide

/-! ### Decoding: one word of every row, bit by bit from 30_encoding.md R72 and R75 -/

theorem test_decode_cls : decoded 0b00000000 0b11100000 = some (.cls) := by decide

theorem test_decode_ret : decoded 0b00000000 0b11101110 = some (.ret) := by decide

theorem test_decode_jp : decoded 0b00010010 0b00001000 = some (.jp 0x208) := by decide

theorem test_decode_call : decoded 0b00101010 0b10111100 = some (.call 0xABC) := by decide

theorem test_decode_seImm : decoded 0b00110111 0b01000010 = some (.seImm 7 0x42) := by decide

theorem test_decode_sneImm : decoded 0b01000011 0b00000101 = some (.sneImm 3 0x05) := by decide

theorem test_decode_seReg : decoded 0b01010001 0b00100000 = some (.seReg 1 2) := by decide

theorem test_decode_ldImm : decoded 0b01101010 0b11001000 = some (.ldImm 0xA 0xC8) := by decide

theorem test_decode_addImm : decoded 0b01110000 0b11111111 = some (.addImm 0 0xFF) := by decide

theorem test_decode_ldReg : decoded 0b10000001 0b00100000 = some (.ldReg 1 2) := by decide

theorem test_decode_orReg : decoded 0b10000001 0b00100001 = some (.orReg 1 2) := by decide

theorem test_decode_andReg : decoded 0b10000001 0b00100010 = some (.andReg 1 2) := by decide

theorem test_decode_xorReg : decoded 0b10000001 0b00100011 = some (.xorReg 1 2) := by decide

theorem test_decode_addReg : decoded 0b10001111 0b00010100 = some (.addReg 0xF 1) := by decide

theorem test_decode_subReg : decoded 0b10001010 0b10110101 = some (.subReg 0xA 0xB) := by decide

theorem test_decode_shr : decoded 0b10000001 0b00100110 = some (.shr 1 2) := by decide

theorem test_decode_subnReg : decoded 0b10000010 0b00000111 = some (.subnReg 2 0) := by decide

theorem test_decode_shl : decoded 0b10000001 0b00001110 = some (.shl 1 0) := by decide

theorem test_decode_sneReg : decoded 0b10010001 0b00100000 = some (.sneReg 1 2) := by decide

theorem test_decode_ldI : decoded 0b10100011 0b00000000 = some (.ldI 0x300) := by decide

theorem test_decode_jpV0 : decoded 0b10111111 0b11111111 = some (.jpV0 0xFFF) := by decide

theorem test_decode_rnd : decoded 0b11000011 0b00001111 = some (.rnd 3 0x0F) := by decide

theorem test_decode_drw : decoded 0b11010001 0b00101111 = some (.drw 1 2 15) := by decide

theorem test_decode_skp : decoded 0b11100011 0b10011110 = some (.skp 3) := by decide

theorem test_decode_sknp : decoded 0b11101110 0b10100001 = some (.sknp 0xE) := by decide

theorem test_decode_ldVxDt : decoded 0b11110011 0b00000111 = some (.ldVxDt 3) := by decide

theorem test_decode_ldVxK : decoded 0b11110001 0b00001010 = some (.ldVxK 1) := by decide

theorem test_decode_ldDtVx : decoded 0b11110010 0b00010101 = some (.ldDtVx 2) := by decide

theorem test_decode_ldStVx : decoded 0b11110010 0b00011000 = some (.ldStVx 2) := by decide

theorem test_decode_addI : decoded 0b11110000 0b00011110 = some (.addI 0) := by decide

theorem test_decode_ldF : decoded 0b11110101 0b00101001 = some (.ldF 5) := by decide

theorem test_decode_ldB : decoded 0b11110000 0b00110011 = some (.ldB 0) := by decide

theorem test_decode_storeRegs : decoded 0b11110010 0b01010101 = some (.storeRegs 2) := by decide

theorem test_decode_loadRegs : decoded 0b11110010 0b01100101 = some (.loadRegs 2) := by decide

/-- The illegal words of V-FD2 to V-FD8, one of each class of 30_encoding.md R76. -/
theorem test_decode_illegal : [decoded 0x01 0x23, decoded 0x51 0x21, decoded 0x91 0x21, decoded 0x81 0x2F, decoded 0x81 0x28,
    decoded 0xE1 0x9F, decoded 0xF1 0xFF] = List.replicate 7 none := by decide

/-- A table word with no bits for its operands decodes with operands 0. -/
theorem test_decodeTableWord_masks : decodeTableWord 16 0x31234 = some (.jp 0x234) := by decide

/-! ### One step, against the spec's vectors -/

/-- V-FD5. -/
theorem test_unknown_opcode : (after (State.reset) 0x812F).map (fun t => t.status) = some (.faulted (.unknownOpcode 0x812F)) := by decide +kernel

/-- V-FD10. -/
theorem test_odd_pc : (after ({ State.reset with pc := 0x201 }) 0x6001).map (fun t => (t.v[0], t.pc)) = some (1, 0x203) := by decide +kernel

/-- V-FD9. -/
theorem test_last_word : (after ({ State.reset with pc := 0xFFE }) 0xA123).map (fun t => (t.i, t.pc)) = some (0x123, 0x1000) := by decide +kernel

/-- V-CF1. -/
theorem test_ret : (after ({ State.reset with sp := 1, stack := State.reset.stack.set 0 0x206, pc := 0x212 }) 0x00EE).map (fun t => (t.pc, t.sp, t.stack[0])) = some (0x206, 0, 0x206) := by decide +kernel

/-- V-CF2. -/
theorem test_ret_underflow : (after (State.reset) 0x00EE).map (fun t => t.status) = some (.faulted (.stackUnderflow)) := by decide +kernel

/-- V-CF3. -/
theorem test_jp : (after (State.reset) 0x1208).map (fun t => t.pc) = some 0x208 := by decide +kernel

/-- V-CF5. -/
theorem test_jp_fff : (after (State.reset) 0x1FFF).map (fun t => t.pc) = some 0xFFF := by decide +kernel

/-- V-CF7. -/
theorem test_call_last_slot : (after ({ State.reset with sp := 15 }) 0x2300).map (fun t => (t.pc, t.sp, t.stack[15], t.stack[14])) = some (0x300, 16, 0x202, 0) := by decide +kernel

/-- V-CF8. -/
theorem test_call_overflow : (after ({ State.reset with sp := 16 }) 0x2300).map (fun t => t.status) = some (.faulted (.stackOverflow)) := by decide +kernel

/-- V-CF9. -/
theorem test_seImm_skips : (after (regs [(0, 0x42)]) 0x3042).map (fun t => t.pc) = some 0x204 := by decide +kernel

/-- V-CF10. -/
theorem test_seImm_stays : (after (regs [(0, 0x41)]) 0x3042).map (fun t => t.pc) = some 0x202 := by decide +kernel

/-- V-CF11. -/
theorem test_sneImm_skips : (after (regs [(0, 0x41)]) 0x4042).map (fun t => t.pc) = some 0x204 := by decide +kernel

/-- V-CF12. -/
theorem test_sneImm_stays : (after (regs [(0, 0x42)]) 0x4042).map (fun t => t.pc) = some 0x202 := by decide +kernel

/-- V-CF13. -/
theorem test_seReg_skips : (after (regs [(1, 7), (2, 7)]) 0x5120).map (fun t => t.pc) = some 0x204 := by decide +kernel

/-- V-CF14. -/
theorem test_seReg_stays : (after (regs [(1, 7), (2, 8)]) 0x5120).map (fun t => t.pc) = some 0x202 := by decide +kernel

/-- V-CF16. -/
theorem test_sneReg_skips : (after (regs [(1, 1), (2, 2)]) 0x9120).map (fun t => t.pc) = some 0x204 := by decide +kernel

/-- V-CF17. -/
theorem test_sneReg_stays : (after (regs [(1, 2), (2, 2)]) 0x9120).map (fun t => t.pc) = some 0x202 := by decide +kernel

/-- V-CF19. -/
theorem test_jpV0_largest : (after (regs [(0, 0xFF)]) 0xBFFF).map (fun t => t.pc) = some 0x10FE := by decide +kernel

/-- V-AL1. -/
theorem test_ldImm : (after (State.reset) 0x6AC8).map (fun t => (t.v[10], t.pc)) = some (0xC8, 0x202) := by decide +kernel

/-- V-AL2. -/
theorem test_addImm_wraps : (after (regs [(0, 0xFF), (15, 0x55)]) 0x7001).map (fun t => (t.v[0], t.v[15])) = some (0, 0x55) := by decide +kernel

/-- V-AL3. -/
theorem test_addImm_vf : (after (regs [(15, 0xFF)]) 0x7F01).map (fun t => t.v[15]) = some 0 := by decide +kernel

/-- V-AL4. -/
theorem test_ldReg : (after (regs [(1, 1), (2, 0x9A)]) 0x8120).map (fun t => (t.v[1], t.v[2])) = some (0x9A, 0x9A) := by decide +kernel

/-- V-AL5. -/
theorem test_orReg : (after (regs [(1, 0xF0), (2, 0x0F), (15, 0x77)]) 0x8121).map (fun t => (t.v[1], t.v[15])) = some (0xFF, 0x77) := by decide +kernel

/-- V-AL6. -/
theorem test_andReg : (after (regs [(1, 0xF0), (2, 0x3C), (15, 0x77)]) 0x8122).map (fun t => (t.v[1], t.v[15])) = some (0x30, 0x77) := by decide +kernel

/-- V-AL7. -/
theorem test_xorReg : (after (regs [(1, 0xF0), (2, 0x3C), (15, 0x77)]) 0x8123).map (fun t => (t.v[1], t.v[15])) = some (0xCC, 0x77) := by decide +kernel

/-- V-AL8. -/
theorem test_addReg_carry : (after (regs [(0, 0xC8), (1, 0x64), (15, 0x55)]) 0x8014).map (fun t => (t.v[0], t.v[15])) = some (0x2C, 1) := by decide +kernel

/-- V-AL11. -/
theorem test_addReg_vf : (after (regs [(15, 0xFF), (1, 1)]) 0x8F14).map (fun t => t.v[15]) = some 1 := by decide +kernel

/-- V-AL13. -/
theorem test_subReg_borrow : (after (regs [(0, 0), (1, 1), (15, 0x55)]) 0x8015).map (fun t => (t.v[0], t.v[15])) = some (0xFF, 0) := by decide +kernel

/-- V-AL14. -/
theorem test_subReg_vf : (after (regs [(15, 1), (1, 2)]) 0x8F15).map (fun t => t.v[15]) = some 0 := by decide +kernel

/-- V-AL17. -/
theorem test_shr_ignores_vy : (after (regs [(1, 3), (2, 0xFF), (15, 0x55)]) 0x8126).map (fun t => (t.v[1], t.v[15])) = some (1, 1) := by decide +kernel

/-- V-AL18. -/
theorem test_shr_vf : (after (regs [(15, 3)]) 0x8F06).map (fun t => t.v[15]) = some 0 := by decide +kernel

/-- V-AL19. -/
theorem test_subnReg : (after (regs [(0, 5), (1, 8), (15, 0x55)]) 0x8017).map (fun t => (t.v[0], t.v[15])) = some (3, 1) := by decide +kernel

/-- V-AL20. -/
theorem test_subnReg_borrow : (after (regs [(0, 8), (1, 5), (15, 0x55)]) 0x8017).map (fun t => (t.v[0], t.v[15])) = some (0xFD, 0) := by decide +kernel

/-- V-AL21. -/
theorem test_shl : (after (regs [(1, 0xC8), (15, 0x55)]) 0x810E).map (fun t => (t.v[1], t.v[15])) = some (0x90, 1) := by decide +kernel

/-- V-AL23. -/
theorem test_shl_vf : (after (regs [(15, 0x81)]) 0x8F0E).map (fun t => t.v[15]) = some 2 := by decide +kernel

/-- 41_alu.md R131: a byte is drawn; V-AL26 (kk = 0 gives 0) is one clause of RandomByteIsMasked. -/
theorem test_rnd_counts_the_draw : (after (regs [(3, 0x55)]) 0xC300).map (fun t => (t.draws, t.pc)) = some (1, 0x202) := by decide +kernel

/-- V-IM1. -/
theorem test_ldI : (after (State.reset) 0xA123).map (fun t => t.i) = some 0x123 := by decide +kernel

/-- V-IM3. -/
theorem test_addI_past_fff : (after ({ regs [(0, 1)] with i := 0xFFF }) 0xF01E).map (fun t => (t.i, t.v[15])) = some (0x1000, 0) := by decide +kernel

/-- V-IM4. -/
theorem test_addI_wraps : (after ({ regs [(0, 1)] with i := 0xFFFF }) 0xF01E).map (fun t => t.i) = some 0 := by decide +kernel

/-- V-IM5. -/
theorem test_ldF_low_nibble : (after (regs [(5, 0x2A)]) 0xF529).map (fun t => t.i) = some 0x082 := by decide +kernel

/-- V-IM6. -/
theorem test_ldF_last_glyph : (after (regs [(5, 0x0F)]) 0xF529).map (fun t => t.i) = some 0x09B := by decide +kernel

/-- V-IM11. -/
theorem test_ldB : (after ({ regs [(0, 0x7B)] with i := 0xFFD }) 0xF033).map (fun t => (t.mem.byteAt 0xFFD, t.mem.byteAt 0xFFE, t.mem.byteAt 0xFFF)) = some (1, 2, 3) := by decide +kernel

/-- V-IM12. -/
theorem test_ldB_faults : (after ({ regs [(0, 0x7B)] with i := 0xFFE }) 0xF033).map (fun t => t.status) = some (.faulted (.memoryOutOfRange 0x1000)) := by decide +kernel

/-- V-IM13. -/
theorem test_storeRegs : (after ({ regs [(0, 1), (1, 2), (2, 3), (3, 4)] with i := 0x300 }) 0xF255).map (fun t => (t.mem.byteAt 0x300, t.mem.byteAt 0x302, t.mem.byteAt 0x303, t.i)) = some (1, 3, 0, 0x300) := by decide +kernel

/-- V-IM15. -/
theorem test_storeRegs_faults : (after ({ State.reset with i := 0xFFF }) 0xF155).map (fun t => t.status) = some (.faulted (.memoryOutOfRange 0x1000)) := by decide +kernel

/-- V-IM17. -/
theorem test_loadRegs : (after ({ bytes State.reset 0x300 [0x11, 0x22, 0x33, 0x44] with i := 0x300 }) 0xF265).map (fun t => (t.v[0], t.v[2], t.v[3], t.i)) = some (0x11, 0x33, 0, 0x300) := by decide +kernel

/-- V-IM18. -/
theorem test_loadRegs_all : (after ({ State.reset with i := 0x050 }) 0xFF65).map (fun t => (t.v[0], t.v[9], t.v[14], t.v[15])) = some (0xF0, 0x70, 0xF0, 0xF0) := by decide +kernel

/-- V-DS1. -/
theorem test_cls : (after ({ State.reset with fb := State.reset.fb.flip 63 31, redraw := false }) 0x00E0).map (fun t => (t.fb.cell 63 31, t.redraw, t.pc)) = some (false, true, 0x202) := by decide +kernel

/-- V-DS4. -/
theorem test_drw_wraps : (after ({ bytes (regs [(0, 0x3F), (15, 0x55)]) 0x300 [0xFF] with i := 0x300 }) 0xD011).map (fun t => (t.fb.cell 63 0, t.fb.cell 0 0, t.fb.cell 7 0, t.v[15])) = some (true, true, false, 0) := by decide +kernel

/-- V-DS11. -/
theorem test_drw_vf_anchor : (after ({ bytes (regs [(15, 2)]) 0x300 [0x80] with i := 0x300, redraw := false }) 0xDFF1).map (fun t => (t.fb.cell 2 2, t.v[15], t.redraw)) = some (true, 0, true) := by decide +kernel

/-- V-TK1. -/
theorem test_skp_pressed : (after ({ regs [(3, 5)] with key := State.reset.key.set 5 true }) 0xE39E).map (fun t => t.pc) = some 0x204 := by decide +kernel

/-- V-TK5. -/
theorem test_skp_faults : (after (regs [(3, 0x10)]) 0xE39E).map (fun t => t.status) = some (.faulted (.keyIndexOutOfRange 0x10)) := by decide +kernel

/-- V-TK4. -/
theorem test_sknp_pressed : (after ({ regs [(3, 5)] with key := State.reset.key.set 5 true }) 0xE3A1).map (fun t => t.pc) = some 0x202 := by decide +kernel

/-- V-TK3. -/
theorem test_sknp_released : (after (regs [(3, 5)]) 0xE3A1).map (fun t => t.pc) = some 0x204 := by decide +kernel

/-- V-TK7. -/
theorem test_ldVxDt : (after ({ State.reset with dt := 60 }) 0xF307).map (fun t => (t.v[3], t.dt)) = some (0x3C, 60) := by decide +kernel

/-- V-TK8. -/
theorem test_ldVxK_waits : (after ({ State.reset with pc := 0x204 }) 0xF10A).map (fun t => t.pc) = some 0x204 := by decide +kernel

/-- V-TK9. -/
theorem test_ldVxK_lowest : (after ({ State.reset with pc := 0x204, key := (State.reset.key.set 7 true).set 3 true }) 0xF10A).map (fun t => (t.v[1], t.pc)) = some (3, 0x206) := by decide +kernel

/-- V-TK11. -/
theorem test_ldDtVx : (after (regs [(2, 0xFF)]) 0xF215).map (fun t => (t.dt, t.st)) = some (255, 0) := by decide +kernel

/-- V-TK12. -/
theorem test_ldStVx : (after (regs [(2, 1)]) 0xF218).map (fun t => (t.st, t.dt)) = some (1, 0) := by decide +kernel

/-! ### Host commands, against the spec's vectors -/

/-- V-HC1. -/
theorem test_tick : (afterCommand .tickTimers { State.reset with dt := 5, st := 1 }).map (fun p => (p.1.dt, p.1.st)) = some (4, 0) := by
  decide +kernel

/-- V-HC4. -/
theorem test_set_key : (afterCommand (.setKey 3 true) State.reset).map (fun p => (p.1.key[3], p.1.key[2])) = some (true, false) := by
  decide +kernel

/-- V-HC5. -/
theorem test_consume_redraw : (afterCommand .consumeRedraw State.reset).map (fun p => p.1.redraw) = some false := by decide +kernel

/-- V-HC9: a second load overwrites its own bytes alone. -/
theorem test_load_again : (afterCommand (.load [0xAB]) (bytes State.reset 0x200 [0x12, 0x34, 0x56, 0x78])).map
    (fun p => (p.1.mem.byteAt 0x200, p.1.mem.byteAt 0x201, p.1.mem.byteAt 0x203)) = some (0xAB, 0x34, 0x78) := by decide +kernel

/-- The codes of 60_exceptions.md R210. -/
theorem test_codes : [Fault.code (.unknownOpcode 0), Fault.code .stackOverflow, Fault.code .stackUnderflow,
    Fault.code (.memoryOutOfRange 0), Fault.code (.keyIndexOutOfRange 0), imageTooLargeCode] = [1, 2, 3, 4, 5, 6] := by decide

/-- The first byte of glyph 0, the last of glyph F, and the bytes around the font (20_memory.md R55). -/
theorem test_font : [0x04F, 0x050, 0x054, 0x09F, 0x0A0].map State.reset.mem.byteAt = [0x00, 0xF0, 0xF0, 0x80, 0x00] := by
  decide +kernel

/-- Program P5's schedule, one tick after every 4th step (95_test_vectors.md), for two ticks. -/
theorem test_paced_schedule : pacedSchedule 4 2 =
    [.step, .step, .step, .step, .tickTimers, .step, .step, .step, .step, .tickTimers] := by decide

/-- Writing the reset contents removes the entry, so that equal memories are equal data. -/
theorem test_memory_canonical : (Memory.write [(0x300, 7)] 0x300 0, Memory.write [] 0x050 0xF0, Memory.write [(9, 1)] 4 2) =
    (([] : Memory), ([] : Memory), [(4, 2), (9, 1)]) := by decide +kernel


/-! ### Witnesses: a concrete state and operands that meet the hypotheses of each statement that has some -/

/-- A running state past the fetch at 0x200, `SP` of its stack slots occupied. -/
def nested (sp : Fin 17) : State := { State.reset with pc := 0x202, sp := sp }

/-- A framebuffer with one cell on and one sprite row 0x81 at I. -/
def canvas : State := { bytes State.reset 0xFFF [0x81] with i := 0xFFF, fb := State.reset.fb.flip 7 0 }

/-- What a fetch at pc reads. -/
def seen (s : State) : Option (Byte × Byte) :=
  match fetchBytes s with
  | .ok p => some p
  | .error _ => none

theorem witness_DecodeAfterEncode : wellFormed (.drw 15 0 15) = true ∧ wellFormed (.drw 0 0 0) = true := by decide

theorem witness_EncodeAfterDecode : decode 0xFF 0x65 = .ok (.loadRegs 15) := rfl

/-- Each class of illegal words is met, next to a legal word. -/
theorem witness_IllegalWordsAreRejected :
    [0x00E1, 0x0FFF, 0x500F, 0x5001, 0x8008, 0x8FFF, 0x9001, 0xE09F, 0xEFA0, 0xF000, 0xFFFF].map decodeWord = List.replicate 11 none ∧
    [0x00E0, 0x1FFF, 0x5000, 0x8007, 0x8FFE, 0x9FF0, 0xE09E, 0xEFA1, 0xF007, 0xFF65].all (fun w => (decodeWord w).isSome) = true := by
  decide

theorem witness_StepRunsDecodedInstruction :
    State.status { State.reset with pc := 0xFFE } = .running ∧ 0xFFE + 1 < 4096 ∧
    decode ((bytes State.reset 0xFFE [0x00, 0xE0]).mem.byteAt 0xFFE) ((bytes State.reset 0xFFE [0x00, 0xE0]).mem.byteAt 0xFFF) = .ok .cls :=
  ⟨rfl, by decide, rfl⟩

/-- The least pc that is out of range, the greatest pc, and the last byte of memory. -/
theorem witness_FetchOutOfRangeFaults : State.reset.status = .running ∧ 4096 ≤ (0x1000 : Word).toNat ∧
    4096 ≤ (0xFFFF : Word).toNat ∧ (0xFFF : Word).toNat = 4095 := by decide

theorem witness_UnknownOpcodeStopsTheMachine : State.reset.status = .running ∧ State.reset.pc.toNat + 1 < 4096 ∧
    decodeWord (BitVec.ofNat 16 (256 * (State.reset.mem.byteAt 0x200).toNat + (State.reset.mem.byteAt 0x201).toNat)) = none := by
  decide +kernel

theorem witness_FaultedMachineIsTerminal :
    (State.reset.takeFault (.keyIndexOutOfRange 0xFF)).status = .faulted (.keyIndexOutOfRange 0xFF) := rfl

/-- Each own fault of an instruction at the least operand that raises it, and none just below. -/
theorem witness_ExecFaultsExactlyAsListed :
    ownFault .ret (nested 0) = some .stackUnderflow ∧ ownFault .ret (nested 1) = none ∧
    ownFault (.call 0) (nested 16) = some .stackOverflow ∧ ownFault (.call 0) (nested 15) = none ∧
    ownFault (.drw 0 0 0) { State.reset with i := 0xFFFF } = none ∧ ownFault (.drw 0 0 1) { State.reset with i := 0xFFF } = none ∧
    ownFault (.drw 0 0 2) { State.reset with i := 0xFFF } = some (.memoryOutOfRange 0x1000) ∧
    ownFault (.ldB 0) { State.reset with i := 0xFFD } = none ∧
    ownFault (.ldB 0) { State.reset with i := 0xFFFF } = some (.memoryOutOfRange 0xFFFF) ∧
    ownFault (.storeRegs 15) { State.reset with i := 0xFF0 } = none ∧
    ownFault (.loadRegs 15) { State.reset with i := 0xFF1 } = some (.memoryOutOfRange 0x1000) ∧
    ownFault (.skp 0) (regs [(0, 15)]) = none ∧ ownFault (.sknp 0) (regs [(0, 16)]) = some (.keyIndexOutOfRange 16) := by
  decide +kernel

/-- A canonical memory with a cell listed, and a step from it. -/
theorem witness_StepKeepsMemoryCanonical : (bytes State.reset 0x200 [0x60, 0x01]).mem.wf ∧
    (bytes State.reset 0x200 [0x60, 0x01]).mem ≠ [] ∧ (after State.reset 0x6001).isSome = true := by decide +kernel

/-- The bound is met at its greatest pc and return address, and the machine steps there. -/
theorem witness_StepKeepsPcBounded :
    State.PcBounded { State.reset with pc := 0x10FE, sp := 1, stack := State.reset.stack.set 0 0x1000 } ∧
    (after { State.reset with pc := 0x10FE, sp := 1, stack := State.reset.stack.set 0 0x1000 } 0).isSome = true :=
  ⟨fun _ => by decide +kernel, by decide +kernel⟩

theorem witness_CommandRunsKeepInvariants : State.reset.mem.wf ∧ State.reset.PcBounded ∧
    ∃ t, runCommands [.load [0x12, 0x00], .step, .tickTimers, .setKey 15 true, .consumeRedraw, .construct] State.reset = .next t :=
  ⟨by decide, fun _ => by decide, _, rfl⟩

theorem witness_MemoryReadAfterWrite : Memory.wf [(0x300, 7)] ∧ 4095 < 4096 ∧ 4096 ≤ 4096 := by decide +kernel

theorem witness_CanonicalMemoriesAgree : Memory.wf (Memory.write [] 0x300 7) ∧ Memory.wf [(0x300, 7)] ∧
    Memory.write [] 0x300 7 = [(0x300, 7)] := by decide +kernel

/-- Every clause's change happens: DT, ST, I (three ways), stack and SP, SP alone, framebuffer and redraw (two ways), memory
(two ways). -/
theorem witness_OnlyNamedInstructionsWrite :
    (ran (.ldDtVx 0) (regs [(0, 9)])).map (fun t => (t.status, t.dt)) = some (.running, 9) ∧
    (ran (.ldStVx 0) (regs [(0, 9)])).map (fun t => (t.status, t.st)) = some (.running, 9) ∧
    (ran (.ldI 3) State.reset).map (fun t => (t.status, t.i)) = some (.running, 3) ∧
    (ran (.addI 0) (regs [(0, 9)])).map (fun t => (t.status, t.i)) = some (.running, 9) ∧
    (ran (.ldF 0) State.reset).map (fun t => (t.status, t.i)) = some (.running, 0x50) ∧
    (ran (.call 0) (nested 0)).map (fun t => (t.status, t.stack[0], t.sp)) = some (.running, 0x202, 1) ∧
    (ran .ret (nested 1)).map (fun t => (t.status, t.sp)) = some (.running, 0) ∧
    (ran .cls { canvas with redraw := false }).map (fun t => (t.status, t.fb.cell 7 0, t.redraw)) = some (.running, false, true) ∧
    (ran (.drw 0 0 1) canvas).map (fun t => (t.status, t.fb.cell 7 0)) = some (.running, false) ∧
    (ran (.ldB 0) (regs [(0, 9)])).map (fun t => (t.status, t.mem)) = some (.running, [(2, 9)]) ∧
    (ran (.storeRegs 0) (regs [(0, 9)])).map (fun t => (t.status, t.mem)) = some (.running, [(0, 9)]) := by decide +kernel

/-- Each disjunct's instruction does write VF somewhere (Cxkk apart, whose byte is free). -/
theorem witness_OnlyNamedInstructionsWriteVF :
    [ran (.addReg 0 1) (regs [(0, 0xFF), (1, 1)]), ran (.subReg 0 1) State.reset, ran (.shr 0 1) (regs [(0, 1)]),
      ran (.subnReg 0 1) State.reset, ran (.shl 0 1) (regs [(0, 0x80)]), ran (.drw 0 0 1) canvas, ran (.ldImm vf 1) State.reset,
      ran (.addImm vf 1) State.reset, ran (.ldReg vf 0) (regs [(0, 1)]), ran (.orReg vf 0) (regs [(0, 1)]),
      ran (.andReg vf 0) (regs [(0, 1), (15, 3)]), ran (.xorReg vf 0) (regs [(0, 1)]),
      ran (.ldVxDt vf) { State.reset with dt := 1 }, ran (.ldVxK vf) { State.reset with key := State.reset.key.set 1 true },
      ran (.loadRegs vf) (bytes State.reset 15 [1])].map (Option.map fun t => (t.status, t.v[15])) =
    List.replicate 15 (some (.running, 1)) := by decide +kernel

/-- Two states that differ in ST, redraw and a stale slot, and the step they take. -/
theorem witness_HiddenStateIsInvisible :
    SameVisible (nested 1) { nested 1 with st := 9, redraw := false, stack := State.reset.stack.set 1 7 } ∧
    (after (nested 1) 0x00EE).map (fun t => (t.status, t.pc)) = some (.running, 0) := by
  refine ⟨⟨rfl, rfl, rfl, rfl, rfl, rfl, rfl, rfl, rfl, rfl, ?_⟩, ?_⟩ <;> decide +kernel

/-- Each clause's hypotheses at the last address and the longest image; and what is seen when the store lies over the next
instruction from a lower I (Fx55), over its second byte only (Fx33), and over none of it. -/
theorem witness_StoreIsSeenByNextFetch : State.reset.mem.wf ∧ (0xFF0 : Word).toNat + (15 : RegIndex).val < 4096 ∧
    (0xFFD : Word).toNat + 2 < 4096 ∧ State.reset.status = .running ∧ (List.replicate 3584 (1 : Byte)).length ≤ 3584 ∧
    (ran (.storeRegs 3) { regs [(1, 7), (2, 8), (3, 9)] with i := 0x1FF }).map (fun t => (t.pc, seen t)) =
      some (0x200, some (7, 8)) ∧
    (ran (.ldB 0) { regs [(0, 0x7B)] with i := 0x201 }).map (fun t => (t.pc, seen t)) = some (0x200, some (0, 1)) ∧
    (ran (.ldB 0) { regs [(0, 0x7B)] with i := 0x202 }).map (fun t => (t.pc, seen t)) = some (0x200, some (0, 0)) := by
  refine ⟨by decide, by decide, by decide, rfl, ?_, by decide +kernel, by decide +kernel, by decide +kernel⟩
  exact Nat.le_of_eq List.length_replicate

/-- A step that raises nothing and a step that raises a fault, with the step command's reply to each (V-CF3, V-CF2). -/
theorem witness_StepCommandReportsTheFault : State.reset.status = .running ∧
    (afterCommand .step (State.reset.withFetchWord 16 0x1208)).map (fun p => (p.1.status, p.2)) = some (.running, .ok) ∧
    (afterCommand .step (State.reset.withFetchWord 16 0x00EE)).map (fun p => (p.1.status, p.2)) =
      some (.faulted .stackUnderflow, .failed .stackUnderflow) := by decide +kernel

theorem witness_FinishedMachineStaysFinished : (bytes State.reset 0x200 [0x12, 0x00]).FinishedAt 0x200 :=
  ⟨rfl, rfl, 0x200, rfl, rfl⟩

/-- The last and the first slot, the empty stack, and a popped address past memory. -/
theorem witness_ReturnPopsThePc : (nested 16).sp.val = (15 : Fin 16).val + 1 ∧ (nested 1).sp.val = (0 : Fin 16).val + 1 ∧
    (nested 0).sp.val = 0 ∧
    (ran .ret { nested 1 with stack := State.reset.stack.set 0 0x1000 }).map (fun t => (t.status, t.pc)) = some (.running, 0x1000) := by
  decide +kernel

theorem witness_JumpSetsThePc : (ran (.jp 0xFFF) State.reset).map (fun t => (t.status, t.pc)) = some (.running, 0xFFF) := by
  decide +kernel

theorem witness_CallPushesThePc : (nested 0).sp.val = (0 : Fin 16).val ∧ (nested 15).sp.val = (15 : Fin 16).val ∧
    (nested 16).sp.val = 16 := by decide

/-- S3's example: `2300` at 0x200 and `00EE` at 0x300. -/
theorem witness_CallThenReturn : (fetchInstr (bytes (bytes State.reset 0x200 [0x23, 0x00]) 0x300 [0x00, 0xEE]) = .ok (.call 0x300)) ∧
    fetchInstr { bytes (bytes State.reset 0x200 [0x23, 0x00]) 0x300 [0x00, 0xEE] with pc := immTarget 0x300 } = .ok .ret ∧
    State.reset.status = .running ∧ State.reset.sp.val < 16 := ⟨rfl, rfl, rfl, by decide⟩

/-- A skip taken and not taken, also from the last pc. -/
theorem witness_skips : (ran (.seImm 0 0) { State.reset with pc := 0xFFFE }).map (·.pc) = some 0 ∧
    (ran (.sneImm 0 0) State.reset).map (·.pc) = some 0x200 ∧ (ran (.seReg 0 0) State.reset).map (·.pc) = some 0x202 ∧
    (ran (.sneReg 0 0) State.reset).map (·.pc) = some 0x200 ∧ 1 ≤ 15 := by decide +kernel

/-- The least target whose next fetch faults, and the largest target. -/
theorem witness_IndexedJump : (ran (.jpV0 0xFFF) State.reset).map (fun t => (t.status, t.pc)) = some (.running, 0xFFF) ∧
    (ran (.jpV0 0xFFF) (regs [(0, 0xFF)])).map (fun t => (t.status, t.pc)) = some (.running, 0x10FE) := by decide +kernel

/-- Register numbers on both sides of `x ≠ F`. -/
theorem witness_flag_clauses : (14 : RegIndex) ≠ vf ∧ (15 : RegIndex) = vf := by decide

theorem witness_RandomByteIsMasked : (0 : Byte) = 0 ∧ (ran (.rnd 0 0) State.reset).isSome = true := by decide +kernel

theorem witness_LoadIndex : (0xFFF : BitVec 12).toNat = 0xFFF ∧ 1 ≤ (1 : RegIndex).val ∧ 2 ≤ 2 ∧ 2 ≤ 15 := by decide

theorem witness_StoreDecimalDigits : State.reset.mem.wf ∧ (0xFFD : Word).toNat + 2 < 4096 := by decide

theorem witness_StoreRegisters : State.reset.mem.wf ∧ (0xFF0 : Word).toNat + (15 : RegIndex).val < 4096 ∧
    (0xFFF : Word).toNat + (0 : RegIndex).val < 4096 := by decide

theorem witness_LoadRegisters : (0xFF0 : Word).toNat + (15 : RegIndex).val < 4096 ∧ (14 : RegIndex) < 15 := by decide

theorem canvas_v0 : canvas.v[(0 : RegIndex)].toNat = 0 := by decide +kernel

/-- One row at the last byte of memory with bits 7 and 0 set: cell (7, 0) is plotted on an on cell, (0, 0) on an off one, and
(1, 0) is not plotted. -/
theorem witness_DrawSprite : (canvas.i.toNat + 1 - 1 < 4096) ∧
    (Plots canvas 0 0 1 7 0 ∧ canvas.fb.cell 7 0 = true) ∧ (Plots canvas 0 0 1 0 0 ∧ canvas.fb.cell 0 0 = false) ∧
    ¬ Plots canvas 0 0 1 1 0 := by
  refine ⟨by decide +kernel, ⟨⟨0, 7, by decide, by decide, ?_⟩, ?_⟩, ⟨⟨0, 0, by decide, by decide, ?_⟩, ?_⟩, ?_⟩
  · decide +kernel
  · decide +kernel
  · decide +kernel
  · decide +kernel
  · rintro ⟨r, c, hr, hc, hb, hx, -⟩
    rw [canvas_v0] at hx
    obtain rfl : r = 0 := by omega
    obtain rfl : c = 1 := by change (0 + c) % 64 = 1 at hx; omega
    exact absurd hb (by decide +kernel)

/-- With no rows nothing is plotted. -/
theorem witness_DrawSprite_none : ¬ ∃ X Y, Plots canvas 0 0 0 X Y ∧ canvas.fb.cell X Y = true := by
  rintro ⟨_, _, ⟨_, _, h, -⟩, -⟩
  exact absurd h (Nat.not_lt_zero _)

theorem witness_DrawTwiceErases : (0 : RegIndex) ≠ vf ∧ (14 : RegIndex) ≠ vf ∧ canvas.i.toNat + 1 - 1 < 4096 := by decide +kernel

theorem witness_KeySkips : (regs [(0, 15)]).v[0].toNat = (15 : Fin 16).val ∧ State.reset.v[0].toNat = (0 : Fin 16).val ∧
    15 < (regs [(0, 16)]).v[0].toNat := by decide +kernel

/-- Keys 3 and 7 pressed: 3 is the lowest; and no key pressed. -/
theorem witness_WaitForKey : ((State.reset.key.set 7 true).set 3 true)[3] = true ∧
    (∀ j : Fin 16, j < 3 → ((State.reset.key.set 7 true).set 3 true)[j] = false) ∧
    ∀ k : Fin 16, State.reset.key[k] = false := by decide +kernel

theorem witness_KeyWaitIsIdempotent : fetchInstr (bytes State.reset 0x200 [0xF1, 0x0A]) = .ok (.ldVxK 1) ∧
    (bytes State.reset 0x200 [0xF1, 0x0A]).status = .running ∧ ∀ k : Fin 16, (bytes State.reset 0x200 [0xF1, 0x0A]).key[k] = false :=
  ⟨rfl, rfl, by decide +kernel⟩

theorem witness_host_commands : State.reset.status = .running ∧ State.reset.mem.wf ∧
    (State.reset.takeFault .stackOverflow).status = .faulted .stackOverflow ∧ 15 < 16 := ⟨rfl, by decide, rfl, by decide⟩

/-- An image of exactly 3584 bytes, and one byte more (V-HC6, V-HC7). -/
theorem witness_LoadCopiesTheImage : (List.replicate 3584 (1 : Byte)).length ≤ 3584 ∧
    3584 < (List.replicate 3585 (1 : Byte)).length := by
  rw [List.length_replicate, List.length_replicate]
  decide

end Sys2Proof.Tests
end

/-! # Both invariants along runs of host commands (O12)

Canonical memory and the pc bound are read off `Effect`, the list of what an instruction can do; a step adds fetch and
advance, a command adds the host's own changes, and a run is an induction over its commands. -/

namespace Sys2Proof.Machine

open Sys2Proof

/-! ### Canonical memory -/

/-- An instruction keeps memory canonical: only a store writes it, and a fault leaves it canonical. -/
theorem Effect.mem_wf {i : Instr} {s t : State} (h : Effect s i t) (hm : s.mem.wf) : t.mem.wf := by
  cases h
  case fault f => exact takeFault_wf s f
  case store m hkeep _ => exact hkeep hm
  case skip c => rw [State.skipIf_mem]; exact hm
  all_goals exact hm

theorem step_mem_wf {s t : State} (hm : s.mem.wf) (h : step s = .next t) : t.mem.wf := by
  obtain ⟨-, ⟨f, -, rfl⟩ | ⟨i, -, hexec⟩⟩ := step_cases h
  · exact takeFault_wf s f
  · exact (exec_effect hexec).mem_wf hm

/-! ### The pc bound -/

/-- The stack half of `State.PcBounded`: every occupied slot holds a return address of at most 0x1000. -/
def State.StackBounded (s : State) : Prop := ∀ j : Fin 16, j.val < s.sp.val → s.stack[j].toNat ≤ 0x1000

theorem State.pcBounded_iff {s : State} :
    s.PcBounded ↔ (s.status = .running → s.pc.toNat ≤ 0x10FE ∧ s.StackBounded) := Iff.rfl

/-- A faulted machine is outside the bound's claim (10_state.md R34). -/
theorem State.takeFault_pcBounded (s : State) (f : Fault) : (s.takeFault f).PcBounded := nofun

theorem State.StackBounded.pop {s : State} (hs : s.StackBounded) (h : 0 < s.sp.val) : (s.pop h).StackBounded :=
  fun j hj => hs j (Nat.lt_of_lt_of_le hj (Nat.sub_le ..))

theorem State.StackBounded.push {s : State} (hs : s.StackBounded) {w : Word} (hw : w.toNat ≤ 0x1000)
    (h : s.sp.val < 16) : (s.push w h).StackBounded := by
  intro j hj
  rw [push_stack_get]
  have hj : j.val < s.sp.val + 1 := hj
  split
  · exact hw
  · exact hs j (by omega)

theorem State.StackBounded.top_le {s : State} (hs : s.StackBounded) (h : 0 < s.sp.val) : (s.top h).toNat ≤ 0x1000 :=
  hs ⟨s.sp.val - 1, by omega⟩ (Nat.sub_lt h Nat.one_pos)

/-- An instruction run at an advanced pc of at most 0x1000 keeps the bound; `BFFF` with V0 = 0xFF attains it
(10_state.md R34). The lower bound on pc is for the rewind of `Fx0A`. -/
theorem Effect.pcBounded {i : Instr} {s t : State} (h : Effect s i t) (hlow : 2 ≤ s.pc.toNat)
    (hpc : s.pc.toNat ≤ 0x1000) (hs : s.StackBounded) : t.PcBounded := by
  rw [State.pcBounded_iff]
  intro hrun
  cases h
  case fault f => cases hrun
  case ret h => exact ⟨Nat.le_trans (hs.top_le h) (by decide), hs.pop h⟩
  case jp nnn => exact ⟨by rw [State.setPc_pc, immTarget_toNat]; omega, hs⟩
  case call nnn h => exact ⟨by rw [State.setPc_pc, immTarget_toNat]; omega, hs.push hpc h⟩
  case jpV0 nnn => exact ⟨by rw [State.setPc_pc, indexedTarget_toNat]; omega, hs⟩
  case skip c =>
    refine ⟨?_, by cases c <;> exact hs⟩
    rw [State.skipIf_pc]
    split <;> bv_omega
  case wait x _ => exact ⟨by rw [State.setPc_pc]; bv_omega, hs⟩
  all_goals exact ⟨Nat.le_trans hpc (by decide), hs⟩

/-- A fetched instruction lies below 0xFFF, so the advanced pc is between 2 and 0x1000 (30_encoding.md R74). -/
theorem advance_pc_range_of_fetchInstr_ok {s : State} {i : Instr} (h : fetchInstr s = .ok i) :
    2 ≤ s.advance.pc.toNat ∧ s.advance.pc.toNat ≤ 0x1000 := by
  obtain ⟨hpc, -⟩ := fetchInstr_ok_iff.1 h
  rw [State.advance_pc]
  constructor <;> bv_omega

theorem step_pcBounded {s t : State} (hb : s.PcBounded) (h : step s = .next t) : t.PcBounded := by
  obtain ⟨hrun, ⟨f, -, rfl⟩ | ⟨i, hfetch, hexec⟩⟩ := step_cases h
  · exact s.takeFault_pcBounded f
  · obtain ⟨hlow, hhigh⟩ := advance_pc_range_of_fetchInstr_ok hfetch
    obtain ⟨-, hs⟩ := State.pcBounded_iff.1 hb hrun
    exact (exec_effect hexec).pcBounded hlow hhigh hs

/-! ### Host commands -/

theorem whenRunning_next {s : State} {r : Reaction} {p : State × Reply} (h : whenRunning s r = .next p) :
    s.status = .running ∧ r = .next p := by
  rw [whenRunning] at h
  cases hs : s.status with
  | running => rw [hs] at h; exact ⟨rfl, h⟩
  | faulted f => rw [hs] at h; cases h

theorem stepCommand_next {s t : State} {r : Reply} (h : stepCommand s = .next (t, r)) : step s = .next t := by
  rw [stepCommand] at h
  cases hstep : step s <;> rw [hstep] at h <;> cases h
  rfl

theorem setKey_next {k : Nat} {pressed : Bool} {s t : State} {r : Reply} (h : setKey k pressed s = .next (t, r)) :
    ∃ hk : k < 16, t = s.setKeyAt ⟨k, hk⟩ pressed := by
  rw [setKey] at h
  split at h <;> cases h
  exact ⟨_, rfl⟩

/-- `load` writes memory alone, and keeps it canonical (70_reset_and_hazards.md R252, R253). -/
theorem load_eq_setMem (image : List Byte) (s : State) :
    ∃ m, (load image s).1 = s.setMem m ∧ (s.mem.wf → m.wf) := by
  rw [load]
  split
  · exact ⟨s.mem, rfl, id⟩
  · next h =>
    have hlen : Config.programBase + image.length ≤ 4096 := by
      simp only [Config.maxImage, Config.memSize, Config.programBase] at h ⊢
      omega
    exact ⟨_, rfl, fun hm => (copyImage_spec image s.mem _ hm hlen).1⟩

theorem construct_pcBounded (s : State) : (construct s).PcBounded :=
  State.pcBounded_iff.2 fun _ => ⟨by change (0x200 : Word).toNat ≤ 0x10FE; decide, nofun⟩

/-- A command steps, starts a fresh machine, or leaves pc, stack and status alone and memory canonical. -/
theorem command_keeps_invariants {c : Command} {s t : State} {r : Reply} (hm : s.mem.wf) (hb : s.PcBounded)
    (h : command c s = .next (t, r)) : t.mem.wf ∧ t.PcBounded := by
  cases c
  case construct => cases h; exact ⟨Memory.wf_nil, construct_pcBounded s⟩
  case step =>
    have hstep := stepCommand_next h
    exact ⟨step_mem_wf hm hstep, step_pcBounded hb hstep⟩
  case load image =>
    obtain ⟨m, hload, hkeep⟩ := load_eq_setMem image s
    obtain ⟨-, h⟩ := whenRunning_next h
    injection h with h
    rw [h] at hload
    subst hload
    exact ⟨hkeep hm, hb⟩
  case setKey k pressed =>
    obtain ⟨-, h⟩ := whenRunning_next h
    obtain ⟨hk, rfl⟩ := setKey_next h
    exact ⟨hm, hb⟩
  case tickTimers => obtain ⟨-, h⟩ := whenRunning_next h; cases h; exact ⟨hm, hb⟩
  case consumeRedraw => obtain ⟨-, h⟩ := whenRunning_next h; cases h; exact ⟨hm, hb⟩
  case video => cases h; exact ⟨hm, hb⟩
  case redraw => cases h; exact ⟨hm, hb⟩
  case sound => cases h; exact ⟨hm, hb⟩

/-- A property that every completed command keeps survives every run of commands (70_reset_and_hazards.md R260). -/
theorem runCommands_induction {P : State → Prop}
    (hstep : ∀ {c s t r}, P s → command c s = .next (t, r) → P t) {cs : List Command} {s t : State}
    (hs : P s) (h : runCommands cs s = .next t) : P t := by
  induction cs generalizing s with
  | nil => cases h; exact hs
  | cons c cs ih =>
    rw [runCommands] at h
    cases hc : command c s with
    | next p => rw [hc] at h; exact ih (hstep hs hc) h
    | fault f => rw [hc] at h; cases h
    | refused r => rw [hc] at h; cases h

/-- Settles O12, by induction over the commands: each one keeps both invariants together. -/
theorem commandRunsKeepInvariants : Obligations.CommandRunsKeepInvariants := by
  unfold Obligations.CommandRunsKeepInvariants
  intro cs s t hm hb hrun
  exact runCommands_induction (P := fun s => s.mem.wf ∧ s.PcBounded)
    (fun ⟨hm, hb⟩ hc => command_keeps_invariants hm hb hc) ⟨hm, hb⟩ hrun

end Sys2Proof.Machine

/-! # State-wide rules (O11, O20, O18, O19, O13, O14)

The pc bound of a step is `step_pcBounded` above. The frames are read off `Effect`, the list of what an instruction can do;
that the hidden state is invisible is a relation between two runs, kept by each instruction. -/

namespace Sys2Proof.Machine

open Sys2Proof

/-- Settles O11: a fetched instruction lies below 0xFFF, and each effect from there keeps the bound (`step_pcBounded`). -/
theorem stepKeepsPcBounded : Obligations.StepKeepsPcBounded := by
  unfold Obligations.StepKeepsPcBounded
  intro s t hb hstep
  exact step_pcBounded hb hstep

/-! ### The reset state (10_state.md R35) -/

/-- Settles O13: the empty list of cells is canonical, and `construct`, which keeps the bound, gives the reset state. -/
theorem resetMeetsInvariants : Obligations.ResetMeetsInvariants := by
  unfold Obligations.ResetMeetsInvariants
  exact ⟨Memory.wf_nil, construct_pcBounded State.reset⟩

theorem font_length : Config.font.length = 80 := rfl

/-- Outside the font region 0x050 to 0x09F an unlisted address reads 0 (20_memory.md R53). -/
theorem initialByte_outside_font {a : Nat} (h : a < 0x050 ∨ 0x0A0 ≤ a) : initialByte a = 0 := by
  rw [initialByte, Config.fontBase]
  split
  · rfl
  · rw [List.getD_eq_getElem?_getD, List.getElem?_eq_none (by rw [font_length]; omega), Option.getD_none]

/-- Settles O14: memory by the font's place, its bytes by evaluation, every other row of the table by the value it names. -/
theorem resetState : Obligations.ResetState := by
  unfold Obligations.ResetState
  refine ⟨fun a _ ha => ?_, by decide, fun x => ?_, fun j => ?_, fun k => ?_, Framebuffer.cell_clear,
    rfl, rfl, rfl, rfl, rfl, rfl, rfl⟩
  · exact initialByte_outside_font ha
  · exact Vector.getElem_replicate x.isLt
  · exact Vector.getElem_replicate j.isLt
  · exact Vector.getElem_replicate k.isLt

/-! ### Which instructions write what (30_encoding.md R78) -/

/-- Settles O18: of the effects without a fault, each named one writes its own part of the state; all others write pc, the
registers or the draw counter. -/
theorem onlyNamedInstructionsWrite : Obligations.OnlyNamedInstructionsWrite := by
  unfold Obligations.OnlyNamedInstructionsWrite
  intro i s t _ hexec hrun
  cases exec_effect hexec
  case fault f => cases hrun
  case cls | draw => simp [State.commitDraw]
  case ret | call => simp
  case index w h => simp [h]
  case dt | st => simp
  case store m _ h => simp [h]
  case jp | jpV0 | skip | wait | reg | flagged | shifted | random | loaded => simp

/-- A register write that changes VF is a write to VF. -/
theorem eq_vf_of_setV_ne {s : State} {x : RegIndex} {b : Byte} (h : (s.setV x b).v[vf] ≠ s.v[vf]) : x = vf := by
  rw [setV_get] at h
  exact Decidable.byContradiction fun hx => h (if_neg (Ne.symm hx))

/-- Settles O19: flags aside, an effect changes VF as the destination of a register write or as the end of a load range. -/
theorem onlyNamedInstructionsWriteVF : Obligations.OnlyNamedInstructionsWriteVF := by
  unfold Obligations.OnlyNamedInstructionsWriteVF
  intro i s t _ hexec hrun hne
  cases exec_effect hexec
  case fault f => cases hrun
  case flagged x b c h => obtain ⟨y, rfl | rfl | rfl⟩ := h <;> simp
  case shifted x b c h => obtain ⟨y, rfl | rfl⟩ := h <;> simp
  case draw => simp
  case reg x b h =>
    obtain rfl := eq_vf_of_setV_ne hne
    obtain rfl | rfl | ⟨kk, rfl | rfl⟩ | ⟨y, rfl | rfl | rfl | rfl⟩ := h <;> simp
  case random x kk b =>
    obtain rfl := eq_vf_of_setV_ne (b := b) hne
    simp
  case loaded x v h =>
    obtain rfl : x = vf := Fin.le_antisymm (Fin.le_last x) (Fin.not_lt.1 fun hx => hne (h vf hx))
    simp
  case skip c => rw [State.skipIf_v] at hne; exact absurd rfl hne
  all_goals exact absurd rfl hne

/-! ### Hidden state is invisible (10_state.md R36) -/

/-- `s` with other values in the state a program cannot see: ST, the redraw flag and the stack slots. -/
def State.withHidden (s : State) (st : Byte) (redraw : Bool) (stack : Vector Word 16) : State :=
  { s with st := st, redraw := redraw, stack := stack }

theorem SameVisible.eq_withHidden {s s' : State} (h : SameVisible s s') :
    s' = s.withHidden s'.st s'.redraw s'.stack := by
  obtain ⟨hmem, hv, hi, hpc, hsp, hdt, hkey, hfb, hstatus, hdraws, -⟩ := h
  exact State.ext_fields hmem hv hi hpc rfl hsp hdt rfl hkey hfb rfl hstatus hdraws

theorem SameVisible.stack {s s' : State} (h : SameVisible s s') :
    ∀ j : Fin 16, j.val < s.sp.val → s'.stack[j] = s.stack[j] := by
  obtain ⟨-, -, -, -, -, -, -, -, -, -, hstack⟩ := h
  exact hstack

theorem sameVisible_withHidden {s : State} {stack : Vector Word 16}
    (hstack : ∀ j : Fin 16, j.val < s.sp.val → stack[j] = s.stack[j]) (st : Byte) (redraw : Bool) :
    SameVisible s (s.withHidden st redraw stack) :=
  ⟨rfl, rfl, rfl, rfl, rfl, rfl, rfl, rfl, rfl, rfl, hstack⟩

/-- Two outcomes a program cannot tell apart: when the first is a next state so is the second, with the same status, and
where no fault was raised they are the same to a program. -/
def SameOutcome (r r' : Result) : Prop :=
  ∀ t, r = .next t → ∃ t', r' = .next t' ∧ t'.status = t.status ∧ (t.status = .running → SameVisible t t')

theorem SameVisible.status {s s' : State} (h : SameVisible s s') : s'.status = s.status := by
  rw [h.eq_withHidden]; rfl

theorem SameVisible.next {t t' : State} (h : SameVisible t t') : SameOutcome (.next t) (.next t') := by
  intro u hu
  cases hu
  exact ⟨t', rfl, h.status, fun _ => h⟩

/-- Both machines take the same fault; nothing is known of the rest (60_exceptions.md R217). -/
theorem sameOutcome_raise (f : Fault) (s s' : State) : SameOutcome (raise f s) (raise f s') := by
  intro u hu
  cases hu
  exact ⟨s'.takeFault f, rfl, rfl, nofun⟩

section Hidden

variable {s : State} {stack : Vector Word 16} (st : Byte) (redraw : Bool)

theorem skipIf_withHidden (c : Bool) :
    (s.withHidden st redraw stack).skipIf c = (s.skipIf c).withHidden st redraw stack := by
  cases c <;> rfl

theorem skipOnKey_withHidden (v : Byte) (wanted : Bool) :
    skipOnKey (s.withHidden st redraw stack) v wanted =
      (skipOnKey s v wanted).map (·.withHidden st redraw stack) := by
  have hkey : keyAt (s.withHidden st redraw stack) v = keyAt s v := rfl
  rw [skipOnKey, skipOnKey, hkey]
  cases keyAt s v with
  | ok p => exact congrArg Except.ok (skipIf_withHidden st redraw (p == wanted))
  | error f => rfl

theorem storeAtI_withHidden (bs : List Byte) :
    storeAtI (s.withHidden st redraw stack) bs = (storeAtI s bs).map (·.withHidden st redraw stack) := by
  have hwrite : writeBytes (s.withHidden st redraw stack).mem (dataAddr (s.withHidden st redraw stack) 0) bs =
      writeBytes s.mem (dataAddr s 0) bs := rfl
  rw [storeAtI, storeAtI, hwrite]
  cases writeBytes s.mem (dataAddr s 0) bs <;> rfl

theorem loadAtI_withHidden (x : RegIndex) :
    loadAtI (s.withHidden st redraw stack) x = (loadAtI s x).map (·.withHidden st redraw stack) := by
  have hread : readBytes (s.withHidden st redraw stack).mem (dataAddr (s.withHidden st redraw stack) 0) (x.val + 1) =
      readBytes s.mem (dataAddr s 0) (x.val + 1) := rfl
  rw [loadAtI, loadAtI, hread]
  cases readBytes s.mem (dataAddr s 0) (x.val + 1) <;> rfl

-- Below SP the replaced stack agrees with the old one, as `SameVisible` asks.
variable (hstack : ∀ j : Fin 16, j.val < s.sp.val → stack[j] = s.stack[j])
include hstack

theorem sameOutcome_next {t : State} (hsp : t.sp = s.sp) (hkept : t.stack = s.stack) :
    SameOutcome (.next t) (.next (t.withHidden st redraw stack)) :=
  (sameVisible_withHidden (by rw [hsp, hkept]; exact hstack) st redraw).next

theorem sameOutcome_skipIf (c : Bool) :
    SameOutcome (.next (s.skipIf c)) (.next ((s.withHidden st redraw stack).skipIf c)) := by
  rw [skipIf_withHidden]
  exact sameOutcome_next st redraw hstack (s.skipIf_sp c) (s.skipIf_stack c)

/-- An instruction that ends in `finish` has the same outcome, if what it computes leaves the stack and commutes with
replacing the hidden state. -/
theorem sameOutcome_finish {r r' : Except Fault State} (hr' : r' = r.map (·.withHidden st redraw stack))
    (hkeep : ∀ t, r = .ok t → t.sp = s.sp ∧ t.stack = s.stack) :
    SameOutcome (finish s r) (finish (s.withHidden st redraw stack) r') := by
  subst hr'
  cases r with
  | ok t =>
    obtain ⟨hsp, hkept⟩ := hkeep t rfl
    exact sameOutcome_next st redraw hstack hsp hkept
  | error f => exact sameOutcome_raise f _ _

theorem sameOutcome_skipOnKey (v : Byte) (wanted : Bool) :
    SameOutcome (finish s (skipOnKey s v wanted))
      (finish (s.withHidden st redraw stack) (skipOnKey (s.withHidden st redraw stack) v wanted)) := by
  refine sameOutcome_finish st redraw hstack (skipOnKey_withHidden st redraw v wanted) fun t ht => ?_
  obtain ⟨c, rfl⟩ := skipOnKey_cases ht
  exact ⟨s.skipIf_sp c, s.skipIf_stack c⟩

theorem sameOutcome_storeAtI (bs : List Byte) :
    SameOutcome (finish s (storeAtI s bs))
      (finish (s.withHidden st redraw stack) (storeAtI (s.withHidden st redraw stack) bs)) := by
  refine sameOutcome_finish st redraw hstack (storeAtI_withHidden st redraw bs) fun t ht => ?_
  obtain ⟨m, rfl, -⟩ := storeAtI_cases ht
  exact ⟨rfl, rfl⟩

theorem execLoadRegs_sameOutcome (x : RegIndex) :
    SameOutcome (execLoadRegs x s) (execLoadRegs x (s.withHidden st redraw stack)) := by
  refine sameOutcome_finish st redraw hstack (loadAtI_withHidden st redraw x) fun t ht => ?_
  obtain ⟨v, rfl⟩ := loadAtI_cases ht
  exact ⟨rfl, rfl⟩

/-- `00EE` reads an occupied slot alone, and leaves fewer of them occupied (40_control_flow.md R100). -/
theorem execRet_sameOutcome : SameOutcome (execRet s) (execRet (s.withHidden st redraw stack)) := by
  by_cases h : 0 < s.sp.val
  · have htop : stack[s.sp.val - 1] = s.stack[s.sp.val - 1] :=
      hstack ⟨s.sp.val - 1, by omega⟩ (Nat.sub_lt h Nat.one_pos)
    rw [execRet, execRet, dif_pos h, dif_pos (show 0 < (s.withHidden st redraw stack).sp.val from h)]
    exact SameVisible.next ⟨rfl, rfl, rfl, htop, rfl, rfl, rfl, rfl, rfl, rfl,
      fun j hj => hstack j (Nat.lt_of_lt_of_le hj (Nat.sub_le ..))⟩
  · rw [execRet, execRet, dif_neg h, dif_neg (show ¬ 0 < (s.withHidden st redraw stack).sp.val from h)]
    exact sameOutcome_raise _ _ _

/-- `2nnn` makes one more slot visible, and has just written it (40_control_flow.md R102). -/
theorem execCall_sameOutcome (nnn : BitVec 12) :
    SameOutcome (execCall nnn s) (execCall nnn (s.withHidden st redraw stack)) := by
  by_cases h : s.sp.val < 16
  · have h' : (s.withHidden st redraw stack).sp.val < 16 := h
    rw [execCall, execCall, dif_pos h, dif_pos h']
    refine SameVisible.next ⟨rfl, rfl, rfl, rfl, rfl, rfl, rfl, rfl, rfl, rfl, fun j (hj : j.val < s.sp.val + 1) => ?_⟩
    change ((s.withHidden st redraw stack).push s.pc h').stack[j] = (s.push s.pc h).stack[j]
    rw [push_stack_get, push_stack_get]
    by_cases hnew : j.val = s.sp.val
    · rw [if_pos hnew, if_pos (show j.val = (s.withHidden st redraw stack).sp.val from hnew)]
    · rw [if_neg hnew, if_neg (show ¬ j.val = (s.withHidden st redraw stack).sp.val from hnew)]
      exact hstack j (by omega)
  · rw [execCall, execCall, dif_neg h, dif_neg (show ¬ (s.withHidden st redraw stack).sp.val < 16 from h)]
    exact sameOutcome_raise _ _ _

/-- `Dxyn` reads the redraw flag only to set it again (43_display.md R171). -/
theorem execDrw_sameOutcome (x y : RegIndex) (n : Nat) :
    SameOutcome (execDrw x y n s) (execDrw x y n (s.withHidden st redraw stack)) := by
  have hread : readBytes (s.withHidden st redraw stack).mem (dataAddr (s.withHidden st redraw stack) 0) n =
      readBytes s.mem (dataAddr s 0) n := rfl
  rw [execDrw, execDrw, hread]
  cases readBytes s.mem (dataAddr s 0) n with
  | ok rows => exact SameVisible.next ⟨rfl, rfl, rfl, rfl, rfl, rfl, rfl, rfl, rfl, rfl, hstack⟩
  | error f => exact sameOutcome_raise f _ _

theorem execLdVxK_sameOutcome (x : RegIndex) :
    SameOutcome (execLdVxK x s) (execLdVxK x (s.withHidden st redraw stack)) := by
  have hlow : lowestPressed (s.withHidden st redraw stack) = lowestPressed s := rfl
  rw [execLdVxK, execLdVxK, hlow]
  cases lowestPressed s with
  | some k => exact sameOutcome_next (t := s.setV x _) st redraw hstack rfl rfl
  | none => exact sameOutcome_next (t := s.setPc _) st redraw hstack rfl rfl

/-- No instruction lets the hidden state into what a program sees. Those not named compute their next state from visible
parts alone, and leave the stack. -/
theorem exec_sameOutcome (i : Instr) : SameOutcome (exec i s) (exec i (s.withHidden st redraw stack)) := by
  cases i
  case ret => exact execRet_sameOutcome st redraw hstack
  case call nnn => exact execCall_sameOutcome st redraw hstack nnn
  case drw x y n => exact execDrw_sameOutcome st redraw hstack x y n
  case ldVxK x => exact execLdVxK_sameOutcome st redraw hstack x
  case loadRegs x => exact execLoadRegs_sameOutcome st redraw hstack x
  case seImm | sneImm | seReg | sneReg => exact sameOutcome_skipIf st redraw hstack _
  case skp | sknp => exact sameOutcome_skipOnKey st redraw hstack _ _
  case ldB | storeRegs => exact sameOutcome_storeAtI st redraw hstack _
  all_goals exact SameVisible.next ⟨rfl, rfl, rfl, rfl, rfl, rfl, rfl, rfl, rfl, rfl, hstack⟩

/-- Fetch and advance read memory, pc and the status alone (30_encoding.md R74). -/
theorem step_sameOutcome : SameOutcome (step s) (step (s.withHidden st redraw stack)) := by
  have hfetch : fetchInstr (s.withHidden st redraw stack) = fetchInstr s := rfl
  cases hs : s.status with
  | faulted f => rw [step_faulted hs]; exact nofun
  | running =>
    rw [step_running hs, step_running (show (s.withHidden st redraw stack).status = .running from hs), hfetch]
    cases fetchInstr s with
    | error f => exact sameOutcome_raise f _ _
    | ok i => exact exec_sameOutcome (s := s.advance) st redraw hstack i

end Hidden

/-- Settles O20: the second machine is the first with other hidden state, and `step_sameOutcome` compares their steps. -/
theorem hiddenStateIsInvisible : Obligations.HiddenStateIsInvisible := by
  unfold Obligations.HiddenStateIsInvisible
  intro s s' t hvis
  rw [hvis.eq_withHidden]
  exact step_sameOutcome s'.st s'.redraw hvis.stack t

end Sys2Proof.Machine

/-! # Memory (O10, O16, O17, O21)

Canonical memory is kept by every step (`step_mem_wf` above) and determined by its bytes. What a store of bytes or a `load`
put where is one function of the address, `storedFrom`, and a fetch after it reads that function. -/

namespace Sys2Proof.Machine

open Sys2Proof

/-- Settles O10: a faulting step leaves memory canonical, and of the effects of an instruction only a store writes it
(`step_mem_wf`). -/
theorem stepKeepsMemoryCanonical : Obligations.StepKeepsMemoryCanonical := by
  unfold Obligations.StepKeepsMemoryCanonical
  intro s t hm hstep
  exact step_mem_wf hm hstep

/-- Settles O16: below 4096 by the law of a read after a write, from 4096 up by the range check both accesses make. -/
theorem memoryReadAfterWrite : Obligations.MemoryReadAfterWrite := by
  unfold Obligations.MemoryReadAfterWrite
  intro m a b hm
  refine ⟨fun ha => ⟨m.write a b, memWrite_ok ha, Memory.write_wf hm ha b, ?_, fun c hc => ?_⟩,
    fun ha => ⟨memWrite_error ha, memRead_error ha⟩⟩
  · rw [memRead_ok ha, Memory.byteAt_write hm, if_pos rfl]
  · rw [Memory.byteAt_write hm, if_neg hc]

/-! ### Canonical memories are determined by their bytes (20_memory.md R50) -/

/-- The first cell of a canonical memory is seen against any memory that lists higher addresses alone: there its address
reads as its reset contents. -/
theorem Memory.byteAt_head_ne {b : Nat} {w : Byte} {m m' : Memory} (hm : Memory.wf ((b, w) :: m))
    (hm' : ∀ c ∈ m', b < c.1) : Memory.byteAt ((b, w) :: m) b ≠ m'.byteAt b := by
  obtain ⟨-, -, hw, -⟩ := Memory.wf_cons.1 hm
  rw [Memory.byteAt_cell, if_pos rfl, Memory.byteAt_below hm']
  exact hw

theorem Memory.lt_all_of_lt_head {a b : Nat} {w : Byte} {m : Memory} (hm : Memory.wf ((b, w) :: m)) (hab : a < b) :
    ∀ c ∈ (b, w) :: m, a < c.1 := by
  obtain ⟨hlt, -, -, -⟩ := Memory.wf_cons.1 hm
  intro c hc
  rcases List.mem_cons.1 hc with rfl | hc
  · exact hab
  · exact Nat.lt_trans hab (hlt c hc)

/-- Canonical memories that start with the same cell and agree still agree without it: at its address both tails read the
reset contents. -/
theorem Memory.byteAt_tail_eq {b : Nat} {w w' : Byte} {m m' : Memory} (hm : ∀ c ∈ m, b < c.1) (hm' : ∀ c ∈ m', b < c.1)
    {a : Nat} (h : Memory.byteAt ((b, w) :: m) a = Memory.byteAt ((b, w') :: m') a) : m.byteAt a = m'.byteAt a := by
  by_cases hab : a = b
  · rw [hab, Memory.byteAt_below hm, Memory.byteAt_below hm']
  · rwa [Memory.byteAt_cell, Memory.byteAt_cell, if_neg hab, if_neg hab] at h

theorem Memory.eq_of_byteAt_eq {m m' : Memory} (hm : m.wf) (hm' : m'.wf)
    (h : ∀ a, a < Config.memSize → m.byteAt a = m'.byteAt a) : m = m' := by
  induction m generalizing m' with
  | nil =>
    cases m' with
    | nil => rfl
    | cons d m' =>
      obtain ⟨-, hb', -, -⟩ := Memory.wf_cons.1 hm'
      exact absurd (h d.1 hb').symm (Memory.byteAt_head_ne hm' nofun)
  | cons c m ih =>
    obtain ⟨b, w⟩ := c
    obtain ⟨hlt, hb, -, hwf⟩ := Memory.wf_cons.1 hm
    cases m' with
    | nil => exact absurd (h b hb) (Memory.byteAt_head_ne hm nofun)
    | cons d m' =>
      obtain ⟨b', w'⟩ := d
      obtain ⟨hlt', hb', -, hwf'⟩ := Memory.wf_cons.1 hm'
      rcases Nat.lt_trichotomy b b' with hbb | rfl | hbb
      · exact absurd (h b hb) (Memory.byteAt_head_ne hm (Memory.lt_all_of_lt_head hm' hbb))
      · have hw : w = w' := by simpa [Memory.byteAt_cell] using h b hb
        rw [hw, ih hwf hwf' fun a ha => Memory.byteAt_tail_eq hlt hlt' (h a ha)]
      · exact absurd (h b' hb').symm (Memory.byteAt_head_ne hm' (Memory.lt_all_of_lt_head hm hbb))

/-- Settles O17, by induction on both lists of cells: the lower of two different first addresses reads differently. -/
theorem canonicalMemoriesAgree : Obligations.CanonicalMemoriesAgree := by
  unfold Obligations.CanonicalMemoriesAgree
  intro m m' hm hm' h
  exact Memory.eq_of_byteAt_eq hm hm' h

/-! ### A fetch after a store (20_memory.md R64) -/

/-- The byte that storing `bs` from `base` up puts at an address, if it puts one there. -/
def storedFrom (base : Nat) (bs : List Byte) (a : Nat) : Option Byte :=
  if base ≤ a then bs[a - base]? else none

/-- `storedFrom` says what the laws of a range write say: the stored byte within the range, the old one elsewhere. -/
theorem storedFrom_getD (base : Nat) (bs : List Byte) (a : Nat) (old : Byte) :
    (storedFrom base bs a).getD old =
      if base ≤ a ∧ a < base + bs.length then bs.getD (a - base) 0 else old := by
  rw [storedFrom]
  by_cases hlow : base ≤ a
  · by_cases hhigh : a < base + bs.length
    · have hin : a - base < bs.length := by omega
      rw [if_pos hlow, if_pos ⟨hlow, hhigh⟩, List.getD_eq_getElem?_getD, List.getElem?_eq_getElem hin]
      rfl
    · rw [if_pos hlow, if_neg fun h => hhigh h.2, List.getElem?_eq_none (by omega)]
      rfl
  · rw [if_neg hlow, if_neg fun h => hlow h.1]
    rfl

/-- An instruction that ends in an in-range store through I completes, leaves pc, and every later fetch sees the store. -/
theorem finish_storeAtI_fetchSees {s : State} (hm : s.mem.wf) {bs : List Byte} (h : s.i.toNat + bs.length ≤ 4096) :
    ∃ t, finish s (storeAtI s bs) = .next t ∧ t.pc = s.pc ∧ FetchSees (storedFrom s.i.toNat bs) s t := by
  obtain ⟨m, hstore, -, hbytes⟩ := storeAtI_ok hm h
  refine ⟨s.setMem m, by rw [hstore, finish_ok], State.setMem_pc s m, fetchSees_of_byteAt fun a _ => ?_⟩
  rw [State.setMem_mem, hbytes, storedFrom_getD]

/-- An accepted `load` completes, leaves pc, and every later fetch sees the image at 0x200 (70_reset_and_hazards.md R252). -/
theorem command_load_fetchSees {s : State} (hm : s.mem.wf) (hrun : s.status = .running) {image : List Byte}
    (h : image.length ≤ 3584) :
    ∃ t, command (.load image) s = .next (t, .ok) ∧ t.pc = s.pc ∧ FetchSees (storedFrom 0x200 image) s t := by
  have hfits : ¬ Config.maxImage < image.length := Nat.not_lt.2 h
  obtain ⟨-, hbytes⟩ := copyImage_spec image s.mem 0x200 hm (by omega)
  refine ⟨s.setMem (copyImage 0x200 image s.mem), ?_, State.setMem_pc s _, fetchSees_of_byteAt fun a _ => ?_⟩
  · rw [command, whenRunning, hrun, load, if_neg hfits]
    rfl
  · rw [State.setMem_mem, hbytes, storedFrom_getD]

/-- The bytes `Fx55` stores: from I up, the registers from V0 to Vx (42_index_memory.md R154). -/
theorem storedFrom_regsThrough (s : State) (x : RegIndex) (base a : Nat) :
    storedFrom base (regsThrough s x) a =
      if base ≤ a ∧ a ≤ base + x.val then s.v[a - base]? else none := by
  rw [storedFrom, regsThrough, List.getElem?_take, Vector.getElem?_toList]
  by_cases hlow : base ≤ a
  · have hrange : a - base < x.val + 1 ↔ a ≤ base + x.val := by omega
    simp only [hlow, hrange, if_true, true_and]
  · rw [if_neg hlow, if_neg fun h => hlow h.1]

/-- Digit `k` of the three decimal digits of a byte, hundreds first (42_index_memory.md R153). -/
theorem bcdDigits_getElem? (b : Byte) (k : Nat) :
    (bcdDigits b)[k]? = if k ≤ 2 then some (BitVec.ofNat 8 (b.toNat / 10 ^ (2 - k) % 10)) else none := by
  have hb := b.isLt
  match k with
  | 0 | 1 | 2 =>
    rw [if_pos (by decide)]
    refine congrArg some (BitVec.eq_of_toNat_eq ?_)
    simp
    omega
  | k + 3 => rw [if_neg (by omega)]; rfl

/-- The bytes `Fx33` stores: from I up, the three decimal digits (42_index_memory.md R153). -/
theorem storedFrom_bcdDigits (b : Byte) (base a : Nat) :
    storedFrom base (bcdDigits b) a =
      if base ≤ a ∧ a ≤ base + 2 then some (BitVec.ofNat 8 (b.toNat / 10 ^ (2 - (a - base)) % 10)) else none := by
  rw [storedFrom, bcdDigits_getElem?]
  by_cases hlow : base ≤ a
  · have hrange : a - base ≤ 2 ↔ a ≤ base + 2 := by omega
    simp only [hlow, hrange, if_true, true_and]
  · rw [if_neg hlow, if_neg fun h => hlow h.1]

/-- Settles O21: both instructions end in a store through I and `load` copies its image, so each is a `storedFrom`. -/
theorem storeIsSeenByNextFetch : Obligations.StoreIsSeenByNextFetch := by
  unfold Obligations.StoreIsSeenByNextFetch
  intro s hm
  refine ⟨fun x hx => ?_, fun x hx => ?_, fun image hrun hlen => command_load_fetchSees hm hrun hlen⟩
  · have hfits : s.i.toNat + (regsThrough s x).length ≤ 4096 := by rw [regsThrough_length]; omega
    rw [← funext (storedFrom_regsThrough s x s.i.toNat)]
    exact finish_storeAtI_fetchSees hm hfits
  · rw [← funext (storedFrom_bcdDigits s.v[x] s.i.toNat)]
    exact finish_storeAtI_fetchSees (bs := bcdDigits (s.getV x)) hm hx

end Sys2Proof.Machine

/-! # Decoder and encoder (O1–O5)

Encoding then decoding goes through the fields of each format (Sys2Proof/Laws/Encoding.lean); decoding then encoding goes
through the converse, that a word is put together from its fields. The rejected words are counted out by the top nibble, one
lemma for each table of functions below it. -/

namespace Sys2Proof

open Sys2Proof.Machine

/-! ### Decoding an encoded instruction -/

/-- The opcode map inverts the encoder: the top nibble selects the row, the fields give the operands back, and only the row
count of `Dxyn` needs well-formedness (30_encoding.md R72, R73, R75). -/
theorem decodeWord_encode {i : Instr} (h : wellFormed i = true) : decodeWord (encode i) = some i := by
  cases i
  case cls | ret => rfl
  case drw x y n =>
    have hn : n % 16 = n := Nat.mod_eq_of_lt (Nat.lt_succ_of_le (of_decide_eq_true h))
    simp [encode, decodeWord, hn]
  case ldReg | orReg | andReg | xorReg | addReg | subReg | shr | subnReg | shl => simp [encode, decodeWord, decodeAlu]
  case skp | sknp => simp [encode, decodeWord, decodeKey]
  case ldVxDt | ldVxK | ldDtVx | ldStVx | addI | ldF | ldB | storeRegs | loadRegs =>
    simp [encode, decodeWord, decodeMisc]
  all_goals simp [encode, decodeWord]

/-- Settles O1: the two bytes of a word put it together again, and the opcode map inverts the encoder. -/
theorem decodeAfterEncode : Obligations.DecodeAfterEncode := by
  unfold Obligations.DecodeAfterEncode
  intro i hwf
  rw [decode_ok_iff, wordOfBytes_split]
  exact decodeWord_encode hwf

/-! ### Encoding a decoded instruction -/

/-- A word whose top nibble is `t` has the format `nnn` with its own field (30_encoding.md R71, R72). -/
theorem formNNN_fields {op : Word} {t : BitVec 4} (ht : (opTop op).toNat = t.toNat) : formNNN t (opNNN op) = op := by
  apply BitVec.eq_of_toNat_eq
  rw [formNNN_toNat, opNNN_toNat, ← ht, opTop_toNat]
  omega

/-- The format `xkk`; with `kk` a function byte it is the format `x_func`. -/
theorem formXKK_fields {op : Word} {t : BitVec 4} {kk : Byte} (ht : (opTop op).toNat = t.toNat)
    (hkk : (opKK op).toNat = kk.toNat) : formXKK t (opX op) kk = op := by
  apply BitVec.eq_of_toNat_eq
  rw [formXKK_toNat, opX_val, ← hkk, opKK_toNat, ← ht, opTop_toNat]
  omega

/-- The format `xyn`; with `n` a function nibble it is the format `xy_func`. -/
theorem formXYN_fields {op : Word} {t n : BitVec 4} (ht : (opTop op).toNat = t.toNat)
    (hn : (opN op).toNat = n.toNat) : formXYN t (opX op) (opY op) n = op := by
  apply BitVec.eq_of_toNat_eq
  rw [formXYN_toNat, opX_val, opY_val, ← hn, opN_toNat, ← ht, opTop_toNat]
  omega

theorem encode_of_decodeFixed {op : Word} {i : Instr} (h : decodeFixed op = some i) :
    wellFormed i = true ∧ encode i = op := by
  unfold decodeFixed at h
  split at h
  next hop => cases h; exact ⟨rfl, hop.symm⟩
  next =>
    split at h
    next hop => cases h; exact ⟨rfl, hop.symm⟩
    next => cases h

theorem encode_of_decodeAlu {op : Word} {i : Instr} (ht : (opTop op).toNat = 0x8) (h : decodeAlu op = some i) :
    wellFormed i = true ∧ encode i = op := by
  unfold decodeAlu at h
  split at h <;> cases h
  all_goals exact ⟨rfl, formXYN_fields ht ‹_›⟩

theorem encode_of_decodeKey {op : Word} {i : Instr} (ht : (opTop op).toNat = 0xE) (h : decodeKey op = some i) :
    wellFormed i = true ∧ encode i = op := by
  unfold decodeKey at h
  split at h <;> cases h
  all_goals exact ⟨rfl, formXKK_fields ht ‹_›⟩

theorem encode_of_decodeMisc {op : Word} {i : Instr} (ht : (opTop op).toNat = 0xF) (h : decodeMisc op = some i) :
    wellFormed i = true ∧ encode i = op := by
  unfold decodeMisc at h
  split at h <;> cases h
  all_goals exact ⟨rfl, formXKK_fields ht ‹_›⟩

/-- The encoder inverts the opcode map on every legal word, whose instruction is well-formed (30_encoding.md R75, R77). The
cases `h_1` to `h_16` are the top nibbles 0x0 to 0xF. -/
theorem encode_of_decodeWord {op : Word} {i : Instr} (h : decodeWord op = some i) :
    wellFormed i = true ∧ encode i = op := by
  unfold decodeWord at h
  split at h
  case h_1 => exact encode_of_decodeFixed h
  case h_6 ht | h_10 ht =>
    split at h <;> cases h
    next hn => exact ⟨rfl, formXYN_fields ht (congrArg BitVec.toNat hn)⟩
  case h_9 ht => exact encode_of_decodeAlu ht h
  case h_14 ht =>
    cases h
    refine ⟨decide_eq_true (Nat.le_of_lt_succ (opN op).isLt), formXYN_fields ht ?_⟩
    rw [BitVec.ofNat_toNat, BitVec.setWidth_eq]
  case h_15 ht => exact encode_of_decodeKey ht h
  case h_16 ht => exact encode_of_decodeMisc ht h
  case h_2 ht | h_3 ht | h_11 ht | h_12 ht => cases h; exact ⟨rfl, formNNN_fields ht⟩
  case h_4 ht | h_5 ht | h_7 ht | h_8 ht | h_13 ht => cases h; exact ⟨rfl, formXKK_fields ht rfl⟩
  case h_17 => cases h

/-- Settles O2: the encoder inverts the opcode map, and the bytes of the word are the bytes it was put together from. -/
theorem encodeAfterDecode : Obligations.EncodeAfterDecode := by
  unfold Obligations.EncodeAfterDecode
  intro hi lo i hdec
  obtain ⟨hwf, henc⟩ := encode_of_decodeWord (decode_ok_iff.1 hdec)
  rw [henc]
  exact ⟨hwf, hiByte_wordOfBytes hi lo, loByte_wordOfBytes hi lo⟩

/-! ### The rejected words (30_encoding.md R76) -/

theorem opN_eq_zero_iff {op : Word} : opN op = 0#4 ↔ op.toNat % 16 = 0 := by
  rw [← opN_toNat, ← BitVec.toNat_inj, BitVec.toNat_ofNat, Nat.zero_mod]

theorem decodeFixed_eq_none_iff {op : Word} : decodeFixed op = none ↔ op.toNat ≠ 0x00E0 ∧ op.toNat ≠ 0x00EE := by
  have hcls : op.toNat = 0x00E0 ↔ op = 0x00E0 := BitVec.toNat_inj (y := 0x00E0)
  have hret : op.toNat = 0x00EE ↔ op = 0x00EE := BitVec.toNat_inj (y := 0x00EE)
  rw [decodeFixed, Ne, Ne, hcls, hret]
  split
  next hop => exact iff_of_false nofun fun h => h.1 hop
  next hne =>
    split
    next hop => exact iff_of_false nofun fun h => h.2 hop
    next hne' => exact iff_of_true rfl ⟨hne, hne'⟩

theorem decodeAlu_eq_none_iff {op : Word} :
    decodeAlu op = none ↔ op.toNat % 16 ∈ [0x8, 0x9, 0xA, 0xB, 0xC, 0xD, 0xF] := by
  have hlt := (opN op).isLt
  rw [decodeAlu, ← opN_toNat]
  split
  case h_10 =>
    simp only [imp_false, true_iff, List.mem_cons, List.not_mem_nil, or_false] at *
    omega
  all_goals next hn => simp [hn]

theorem decodeKey_eq_none_iff {op : Word} : decodeKey op = none ↔ op.toNat % 256 ∉ [0x9E, 0xA1] := by
  rw [decodeKey, ← opKK_toNat]
  split
  case h_3 =>
    simp only [imp_false, true_iff, List.mem_cons, List.not_mem_nil, or_false, not_or] at *
    omega
  all_goals next hkk => simp [hkk]

theorem decodeMisc_eq_none_iff {op : Word} : decodeMisc op = none ↔
    op.toNat % 256 ∉ [0x07, 0x0A, 0x15, 0x18, 0x1E, 0x29, 0x33, 0x55, 0x65] := by
  rw [decodeMisc, ← opKK_toNat]
  split
  case h_10 =>
    simp only [imp_false, true_iff, List.mem_cons, List.not_mem_nil, or_false, not_or] at *
    omega
  all_goals next hkk => simp [hkk]

/-- Settles O3: each class of the table is the rejection of one row of the opcode map, picked by the top nibble; the rows
without a class reject nothing. -/
theorem illegalWordsAreRejected : Obligations.IllegalWordsAreRejected := by
  unfold Obligations.IllegalWordsAreRejected
  intro op
  rw [decode_error_iff, wordOfBytes_split, and_iff_left rfl, ← opTop_toNat, ← decodeFixed_eq_none_iff,
    ← decodeAlu_eq_none_iff, ← decodeKey_eq_none_iff, ← decodeMisc_eq_none_iff]
  have hlt := (opTop op).isLt
  unfold decodeWord
  split
  case h_17 =>
    simp only [imp_false] at *
    omega
  all_goals next ht => simp [ht, opN_eq_zero_iff]

/-! ### Sample words and the step -/

/-- Settles O4: the opcode map evaluates each word to the instruction its bits spell, or rejects it. -/
theorem sampleWordsDecode : Obligations.SampleWordsDecode := by
  unfold Obligations.SampleWordsDecode
  simp only [decode_ok_iff, decode_error_iff]
  decide

/-- Settles O5: with pc in range and legal bytes there, fetch answers the instruction, which runs on the advanced state. -/
theorem stepRunsDecodedInstruction : Obligations.StepRunsDecodedInstruction := by
  unfold Obligations.StepRunsDecodedInstruction
  intro s i hrun hpc hdec
  rw [step_running hrun, fetchInstr_ok_iff.2 ⟨hpc, hdec⟩]
  rfl

end Sys2Proof

/-! # Control flow (O26, O23, O24, O25, O27, O28, O29)

A frame is put together from the frames of the named updates, a word's decoding from its format. Each obligation is the
instruction's rule on the state (40_control_flow.md), its frame, and the fault of the next fetch where the target is out
of range. -/

namespace Sys2Proof

open Sys2Proof.Machine

/-! ### Words as numbers decode to the instruction of their format -/

theorem decodeWord_wordNNN {i : Instr} (t : BitVec 4) (nnn : BitVec 12) (hwf : wellFormed i = true)
    (henc : encode i = formNNN t nnn) : decodeWord (wordNNN t.toNat nnn.toNat) = some i := by
  rw [wordNNN_eq_form, ← henc]
  exact decodeWord_encode hwf

theorem decodeWord_wordXKK {i : Instr} (t : BitVec 4) (x : RegIndex) (kk : Byte) (hwf : wellFormed i = true)
    (henc : encode i = formXKK t x kk) : decodeWord (wordXKK t.toNat x.val kk.toNat) = some i := by
  rw [wordXKK_eq_form, ← henc]
  exact decodeWord_encode hwf

theorem decodeWord_wordXYN {i : Instr} (t : BitVec 4) (x y : RegIndex) (n : BitVec 4) (hwf : wellFormed i = true)
    (henc : encode i = formXYN t x y n) : decodeWord (wordXYN t.toNat x.val y.val n.toNat) = some i := by
  rw [wordXYN_eq_form, ← henc]
  exact decodeWord_encode hwf

/-- The register skips are legal with low nibble 0 alone (30_encoding.md R76). -/
theorem decodeWord_registerSkip_eq_none {t n : BitVec 4} (ht : t = 0x5 ∨ t = 0x9) (hn : n ≠ 0) (x y : RegIndex) :
    decodeWord (formXYN t x y n) = none := by
  obtain rfl | rfl := ht
  · simpa [decodeWord] using hn
  · simpa [decodeWord] using hn

end Sys2Proof

namespace Sys2Proof.Machine

open Sys2Proof

/-! ### Frames (30_encoding.md R78) -/

theorem Part.Same.refl (s : State) (p : Part) : p.Same s s := by
  cases p
  case mem => exact ⟨rfl, fun _ => rfl⟩
  all_goals rfl

theorem Part.Same.trans {s t u : State} {p : Part} (hst : p.Same s t) (htu : p.Same t u) : p.Same s u := by
  cases p
  case mem => exact ⟨htu.1.trans hst.1, fun a => (htu.2 a).trans (hst.2 a)⟩
  all_goals exact Eq.trans htu hst

theorem OnlyChanges.refl (ps : List Part) (s : State) : OnlyChanges ps s s := fun p _ => .refl s p

theorem OnlyChanges.mono {ps qs : List Part} {s t : State} (h : OnlyChanges ps s t) (hsub : ps ⊆ qs) :
    OnlyChanges qs s t := fun p hp => h p fun hmem => hp (hsub hmem)

theorem OnlyChanges.trans {ps : List Part} {s t u : State} (hst : OnlyChanges ps s t) (htu : OnlyChanges ps t u) :
    OnlyChanges ps s u := fun p hp => (hst p hp).trans (htu p hp)

/-- A listed part that has its old value again need not be listed. -/
theorem OnlyChanges.of_same {q : Part} {ps : List Part} {s t : State} (h : OnlyChanges (q :: ps) s t)
    (hq : q.Same s t) : OnlyChanges ps s t := by
  intro p hp
  by_cases hpq : p = q
  · rw [hpq]; exact hq
  · exact h p fun hmem => (List.mem_cons.1 hmem).elim hpq hp

theorem State.setPc_onlyChanges (s : State) (w : Word) : OnlyChanges [.pc] s (s.setPc w) := by
  intro p hp
  cases p
  case pc => exact absurd (List.mem_singleton_self _) hp
  case mem => exact .refl s .mem
  all_goals rfl

theorem State.advance_onlyChanges (s : State) : OnlyChanges [.pc] s s.advance := s.setPc_onlyChanges (s.pc + 2)

theorem State.skipIf_onlyChanges (s : State) (c : Bool) : OnlyChanges [.pc] s (s.skipIf c) := by
  cases c
  · exact .refl [.pc] s
  · exact s.advance_onlyChanges

theorem State.pop_onlyChanges (s : State) (h : 0 < s.sp.val) : OnlyChanges [.sp] s (s.pop h) := by
  intro p hp
  cases p
  case sp => exact absurd (List.mem_singleton_self _) hp
  case mem => exact .refl s .mem
  all_goals rfl

theorem State.push_onlyChanges (s : State) (w : Word) (h : s.sp.val < 16) :
    OnlyChanges [.sp, .stack] s (s.push w h) := by
  intro p hp
  cases p
  case sp | stack => simp at hp
  case mem => exact .refl s .mem
  all_goals rfl

/-! ### The next fetch -/

/-- Fetch reads memory and pc alone. -/
theorem fetchInstr_congr {s t : State} (hmem : t.mem = s.mem) (hpc : t.pc = s.pc) : fetchInstr t = fetchInstr s := by
  rw [fetchInstr, fetchInstr, fetchBytes, fetchBytes, hmem, hpc]

theorem step_of_fetchInstr_ok {s : State} {i : Instr} (hrun : s.status = .running) (hfetch : fetchInstr s = .ok i) :
    step s = exec i s.advance := by
  rw [step_running hrun, hfetch]

/-- A target whose fetch leaves memory faults at the next step (40_control_flow.md R109, 60_exceptions.md R214). -/
theorem step_raises_memoryOutOfRange {s : State} (hrun : s.status = .running) (hpc : 0xFFF ≤ s.pc.toNat) :
    Raises (step s) (.memoryOutOfRange (max s.pc.toNat 0x1000)) := by
  rw [step_running hrun, fetchInstr, fetchBytes_error hpc]
  exact raises_raise _ s

/-! ### Call and return (40_control_flow.md R100, R102) -/

/-- The state a completed `00EE` leaves. -/
def State.returned (s : State) (h : 0 < s.sp.val) : State := (s.pop h).setPc (s.top h)

/-- The state a completed `2nnn` leaves. -/
def State.called (s : State) (nnn : BitVec 12) (h : s.sp.val < 16) : State := (s.push s.pc h).setPc (immTarget nnn)

theorem exec_ret {s : State} (h : 0 < s.sp.val) : exec .ret s = .next (s.returned h) := dif_pos h

theorem exec_ret_raises {s : State} (h : s.sp.val = 0) : Raises (exec .ret s) .stackUnderflow := by
  rw [exec, execRet, dif_neg (by omega)]
  exact raises_raise _ s

theorem exec_call (nnn : BitVec 12) {s : State} (h : s.sp.val < 16) :
    exec (.call nnn) s = .next (s.called nnn h) := dif_pos h

theorem exec_call_raises (nnn : BitVec 12) {s : State} (h : s.sp.val = 16) :
    Raises (exec (.call nnn) s) .stackOverflow := by
  rw [exec, execCall, dif_neg (by omega)]
  exact raises_raise _ s

theorem State.returned_onlyChanges (s : State) (h : 0 < s.sp.val) : OnlyChanges [.pc, .sp] s (s.returned h) :=
  ((s.pop_onlyChanges h).mono (by simp)).trans ((State.setPc_onlyChanges _ _).mono (by simp))

theorem State.called_onlyChanges (s : State) (nnn : BitVec 12) (h : s.sp.val < 16) :
    OnlyChanges [.pc, .sp, .stack] s (s.called nnn h) :=
  ((s.push_onlyChanges s.pc h).mono (by simp)).trans ((State.setPc_onlyChanges _ _).mono (by simp))

theorem State.top_eq_get {s : State} {k : Fin 16} (hk : s.sp.val = k.val + 1) (h : 0 < s.sp.val) :
    s.top h = s.stack[k] := by
  simp [hk]

theorem State.top_push (s : State) (w : Word) (h : s.sp.val < 16) : (s.push w h).top (Nat.succ_pos s.sp.val) = w :=
  Vector.getElem_set_self ..

/-- Settles O26: the call leaves its target in pc and its own address + 2 on top of the stack, which the return pops;
the frames of the two steps list SP, which is back at its old value. -/
theorem callThenReturn : Obligations.CallThenReturn := by
  unfold Obligations.CallThenReturn
  intro s nnn hrun hsp hcall hret
  have hsp : s.advance.sp.val < 16 := hsp
  have hpos : 0 < (s.advance.called nnn hsp).advance.sp.val := Nat.succ_pos s.sp.val
  have hfetch : fetchInstr (s.advance.called nnn hsp) = .ok .ret := (fetchInstr_congr rfl rfl).trans hret
  have hfirst : step s = .next (s.advance.called nnn hsp) :=
    (step_of_fetchInstr_ok hrun hcall).trans (exec_call nnn hsp)
  have hsecond : step (s.advance.called nnn hsp) = .next ((s.advance.called nnn hsp).advance.returned hpos) :=
    (step_of_fetchInstr_ok (s := s.advance.called nnn hsp) hrun hfetch).trans (exec_ret hpos)
  have hframe : OnlyChanges [.sp, .pc, .stack] s ((s.advance.called nnn hsp).advance.returned hpos) :=
    (s.advance_onlyChanges.mono (by simp)).trans <|
    ((s.advance.called_onlyChanges nnn hsp).mono (by simp)).trans <|
    ((State.advance_onlyChanges _).mono (by simp)).trans <|
    (State.returned_onlyChanges _ hpos).mono (by simp)
  exact ⟨_, _, hfirst, immTarget_toNat nnn, hsecond, s.advance.top_push _ hsp, rfl, hframe.of_same rfl⟩

/-- Settles O23: `exec_ret` pops the slot below SP, its frame is `State.returned_onlyChanges`, and a popped address past
memory faults at the next fetch. -/
theorem returnPopsThePc : Obligations.ReturnPopsThePc := by
  unfold Obligations.ReturnPopsThePc
  refine ⟨by decide, fun s k hk => ?_, fun s => exec_ret_raises⟩
  have hpos : 0 < s.sp.val := by omega
  refine ⟨_, exec_ret hpos, congrArg (· - 1) hk, State.top_eq_get hk hpos, s.returned_onlyChanges hpos,
    fun hrun hpc => ?_⟩
  have hfault := step_raises_memoryOutOfRange hrun (by omega)
  rwa [Nat.max_eq_left hpc] at hfault

/-- Settles O25: `exec_call` pushes the advanced pc at SP, and `State.called_onlyChanges` is its frame. -/
theorem callPushesThePc : Obligations.CallPushesThePc := by
  unfold Obligations.CallPushesThePc
  intro nnn
  refine ⟨decodeWord_wordNNN 0x2 nnn rfl rfl, fun s k hk => ?_, fun s => exec_call_raises nnn⟩
  have hsp : s.sp.val < 16 := by omega
  have hstack := push_stack_get s s.pc hsp
  refine ⟨_, exec_call nnn hsp, (hstack k).trans (if_pos hk.symm), fun j hj => (hstack j).trans (if_neg ?_),
    congrArg (· + 1) hk, immTarget_toNat nnn, s.called_onlyChanges nnn hsp⟩
  exact fun h => hj (Fin.ext (h.trans hk))

/-! ### Jumps (40_control_flow.md R101, R107) -/

/-- Settles O24: the jump writes pc alone, and a target of 0xFFF leaves memory at the second byte of the next fetch. -/
theorem jumpSetsThePc : Obligations.JumpSetsThePc := by
  unfold Obligations.JumpSetsThePc
  intro nnn
  refine ⟨decodeWord_wordNNN 0x1 nnn rfl rfl, fun s => ?_⟩
  have hpc : (s.setPc (immTarget nnn)).pc.toNat = nnn.toNat := immTarget_toNat nnn
  refine ⟨_, rfl, hpc, s.setPc_onlyChanges _, fun hrun hnnn => ?_⟩
  rw [hnnn] at hpc
  have hfault := step_raises_memoryOutOfRange hrun (Nat.le_of_eq hpc.symm)
  rwa [hpc] at hfault

/-- Settles O29: the sum of a 12-bit and an 8-bit number does not wrap (`indexedTarget_toNat`), and the jump writes pc
alone. -/
theorem indexedJump : Obligations.IndexedJump := by
  unfold Obligations.IndexedJump
  intro nnn
  refine ⟨decodeWord_wordNNN 0xB nnn rfl rfl, fun s => ?_⟩
  have hpc : (s.setPc (indexedTarget s nnn)).pc.toNat = nnn.toNat + s.v[0].toNat := indexedTarget_toNat s nnn
  refine ⟨_, rfl, hpc, ?_, s.setPc_onlyChanges _, step_raises_memoryOutOfRange⟩
  have hnnn := nnn.isLt
  have hv := s.v[0].isLt
  omega

/-! ### Skips (40_control_flow.md R103–R106, R108) -/

theorem State.skipIf_pc_toNat (s : State) (c : Bool) :
    (s.skipIf c).pc.toNat = if c then (s.pc.toNat + 2) % 65536 else s.pc.toNat := by
  rw [State.skipIf_pc]
  cases c <;> rfl

theorem State.skipIf_beq_pc_toNat (s : State) (a b : Byte) :
    (s.skipIf (a == b)).pc.toNat = if a.toNat = b.toNat then (s.pc.toNat + 2) % 65536 else s.pc.toNat := by
  rw [State.skipIf_pc_toNat]
  simp [BitVec.toNat_inj]

theorem State.skipIf_bne_pc_toNat (s : State) (a b : Byte) :
    (s.skipIf (a != b)).pc.toNat = if a.toNat ≠ b.toNat then (s.pc.toNat + 2) % 65536 else s.pc.toNat := by
  rw [State.skipIf_pc_toNat]
  simp [BitVec.toNat_inj]

/-- Settles O27: both are a `skipIf` on Vx and kk, whose frame is pc alone. -/
theorem immediateSkips : Obligations.ImmediateSkips := by
  unfold Obligations.ImmediateSkips
  intro x kk
  refine ⟨decodeWord_wordXKK 0x3 x kk rfl rfl, decodeWord_wordXKK 0x4 x kk rfl rfl, fun s => ?_⟩
  exact ⟨_, _, rfl, rfl, s.skipIf_beq_pc_toNat _ _, s.skipIf_bne_pc_toNat _ _, s.skipIf_onlyChanges _,
    s.skipIf_onlyChanges _⟩

/-- Settles O28: both are a `skipIf` on Vx and Vy; a low nibble from 1 to 15 is a nonzero function nibble. -/
theorem registerSkips : Obligations.RegisterSkips := by
  unfold Obligations.RegisterSkips
  intro x y
  refine ⟨decodeWord_wordXYN 0x5 x y 0x0 rfl rfl, decodeWord_wordXYN 0x9 x y 0x0 rfl rfl, fun n hlow hhigh => ?_,
    fun s => ?_⟩
  · have hn : (BitVec.ofNat 4 n).toNat = n := Nat.mod_eq_of_lt (Nat.lt_succ_of_le hhigh)
    have hne : BitVec.ofNat 4 n ≠ 0 := by
      intro h
      rw [h, BitVec.ofNat_eq_ofNat, BitVec.toNat_zero] at hn
      omega
    have hword (t : BitVec 4) := wordXYN_eq_form t x y (BitVec.ofNat 4 n)
    rw [hn] at hword
    exact ⟨(congrArg decodeWord (hword 0x5)).trans (decodeWord_registerSkip_eq_none (.inl rfl) hne x y),
      (congrArg decodeWord (hword 0x9)).trans (decodeWord_registerSkip_eq_none (.inr rfl) hne x y)⟩
  · exact ⟨_, _, rfl, rfl, s.skipIf_beq_pc_toNat _ _, s.skipIf_bne_pc_toNat _ _, s.skipIf_onlyChanges _,
      s.skipIf_onlyChanges _⟩

end Sys2Proof.Machine

/-! # Register arithmetic and logic (O30 to O38)

Each instruction writes Vx, or Vx and VF in the order of 41_alu.md R133. What such writes leave readable and what they leave
alone is said once below; an obligation adds the arithmetic of the written byte and of the flag. -/

namespace Sys2Proof.Machine

open Sys2Proof

/-! ### Register frames -/

theorem OnlyRegs.mono {xs ys : List RegIndex} {s t : State} (h : OnlyRegs xs s t) (hsub : xs ⊆ ys) : OnlyRegs ys s t :=
  fun j hj => h j fun hmem => hj (hsub hmem)

theorem OnlyRegs.trans {xs : List RegIndex} {s t u : State} (hst : OnlyRegs xs s t) (htu : OnlyRegs xs t u) :
    OnlyRegs xs s u := fun j hj => (htu j hj).trans (hst j hj)

theorem State.setV_onlyRegs (s : State) (x : RegIndex) (b : Byte) : OnlyRegs [x] s (s.setV x b) := fun j hj =>
  (setV_get s x b j).trans (if_neg fun h => hj (List.mem_singleton.2 h))

theorem State.setFlag_onlyRegs (s : State) (c : Bool) : OnlyRegs [vf] s (s.setFlag c) := s.setV_onlyRegs vf (flagByte c)

theorem State.setV_onlyChanges (s : State) (x : RegIndex) (b : Byte) : OnlyChanges [.v] s (s.setV x b) := by
  intro p hp
  cases p
  case v => exact absurd (List.mem_singleton_self _) hp
  case mem => exact .refl s .mem
  all_goals rfl

theorem State.setFlag_onlyChanges (s : State) (c : Bool) : OnlyChanges [.v] s (s.setFlag c) :=
  s.setV_onlyChanges vf (flagByte c)

theorem State.drawn_onlyChanges (s : State) : OnlyChanges [.draws] s s.drawn := by
  intro p hp
  cases p
  case draws => exact absurd (List.mem_singleton_self _) hp
  case mem => exact .refl s .mem
  all_goals rfl

/-! ### Reading back the written registers -/

theorem setV_get_self (s : State) (x : RegIndex) (b : Byte) : (s.setV x b).v[x] = b :=
  (setV_get s x b x).trans (if_pos rfl)

theorem setV_get_of_ne (s : State) {x j : RegIndex} (b : Byte) (h : j ≠ x) : (s.setV x b).v[j] = s.v[j] :=
  (setV_get s x b j).trans (if_neg h)

theorem setFlag_get_vf (s : State) (c : Bool) : (s.setFlag c).v[vf] = flagByte c := setV_get_self s vf (flagByte c)

theorem setFlag_get_of_ne (s : State) (c : Bool) {j : RegIndex} (h : j ≠ vf) : (s.setFlag c).v[j] = s.v[j] :=
  setV_get_of_ne s (flagByte c) h

/-! ### A result, then its flag: 8xy4, 8xy5, 8xy7 -/

theorem setV_setFlag_get (s : State) {x : RegIndex} (b : Byte) (c : Bool) (h : x ≠ vf) :
    ((s.setV x b).setFlag c).v[x] = b :=
  (setFlag_get_of_ne _ c h).trans (setV_get_self s x b)

theorem setV_setFlag_onlyRegs (s : State) (x : RegIndex) (b : Byte) (c : Bool) :
    OnlyRegs [x, vf] s ((s.setV x b).setFlag c) :=
  ((s.setV_onlyRegs x b).mono (by simp)).trans ((State.setFlag_onlyRegs _ c).mono (by simp))

theorem setV_setFlag_onlyChanges (s : State) (x : RegIndex) (b : Byte) (c : Bool) :
    OnlyChanges [.v] s ((s.setV x b).setFlag c) :=
  (s.setV_onlyChanges x b).trans (State.setFlag_onlyChanges _ c)

/-! ### A flag, then its result: 8xy6, 8xyE -/

theorem setFlag_setV_get_vf (s : State) {x : RegIndex} (c : Bool) (b : Byte) (h : x ≠ vf) :
    ((s.setFlag c).setV x b).v[vf] = flagByte c :=
  (setV_get_of_ne _ b h.symm).trans (setFlag_get_vf s c)

theorem setFlag_setV_onlyRegs (s : State) (x : RegIndex) (c : Bool) (b : Byte) :
    OnlyRegs [x, vf] s ((s.setFlag c).setV x b) :=
  ((s.setFlag_onlyRegs c).mono (by simp)).trans ((State.setV_onlyRegs _ x b).mono (by simp))

theorem setFlag_setV_onlyChanges (s : State) (x : RegIndex) (c : Bool) (b : Byte) :
    OnlyChanges [.v] s ((s.setFlag c).setV x b) :=
  (s.setFlag_onlyChanges c).trans (State.setV_onlyChanges _ x b)

/-! ### The arithmetic of bytes and flags -/

theorem byte_sub_toNat (a b : Byte) : (a - b).toNat = (a.toNat + 256 - b.toNat) % 256 := by
  have hb := b.isLt
  rw [BitVec.toNat_sub]
  omega

theorem byte_ushiftRight_one_toNat (a : Byte) : (a >>> 1).toNat = a.toNat / 2 := by
  rw [BitVec.toNat_ushiftRight, Nat.shiftRight_eq_div_pow, Nat.pow_one]

theorem byte_shiftLeft_one_toNat (a : Byte) : (a <<< 1).toNat = 2 * a.toNat % 256 := by
  rw [BitVec.toNat_shiftLeft, Nat.shiftLeft_eq, Nat.pow_one, Nat.mul_comm]

theorem flagByte_carry_toNat (a b : Byte) :
    (flagByte (carry a b)).toNat = if 255 < a.toNat + b.toNat then 1 else 0 := by
  simp [flagByte_toNat, carry]

theorem flagByte_noBorrow_toNat (a b : Byte) :
    (flagByte (noBorrow a b)).toNat = if a.toNat ≥ b.toNat then 1 else 0 := by
  simp [flagByte_toNat, noBorrow]

theorem flagByte_toNat_testBit (n k : Nat) : (flagByte (n.testBit k)).toNat = n / 2 ^ k % 2 := by
  rw [← Nat.toNat_testBit]
  cases n.testBit k <;> rfl

theorem flagByte_bitOutRight_toNat (a : Byte) : (flagByte (bitOutRight a)).toNat = a.toNat % 2 := by
  have h : (flagByte (bitOutRight a)).toNat = a.toNat / 2 ^ 0 % 2 := flagByte_toNat_testBit a.toNat 0
  omega

theorem flagByte_bitOutLeft_toNat (a : Byte) : (flagByte (bitOutLeft a)).toNat = a.toNat / 128 := by
  have ha := a.isLt
  have h : (flagByte (bitOutLeft a)).toNat = a.toNat / 2 ^ 7 % 2 := flagByte_toNat_testBit a.toNat 7
  omega

theorem flagByte_ushiftRight_one (c : Bool) : flagByte c >>> 1 = 0 := by
  cases c <;> rfl

theorem flagByte_shiftLeft_one_toNat (c : Bool) : (flagByte c <<< 1).toNat = 2 * (flagByte c).toNat := by
  cases c <;> rfl

/-! ### Loads, copies and logic (41_alu.md R120–R125) -/

/-- Settles O30: the load is one register write of kk. -/
theorem loadImmediate : Obligations.LoadImmediate := by
  unfold Obligations.LoadImmediate
  intro x kk
  refine ⟨decodeWord_wordXKK 0x6 x kk rfl rfl, fun s => ?_⟩
  exact ⟨_, rfl, setV_get_self s x kk, s.setV_onlyRegs x kk, s.setV_onlyChanges x kk⟩

/-- Settles O31: the addition is one register write of a byte sum. -/
theorem addImmediateWraps : Obligations.AddImmediateWraps := by
  unfold Obligations.AddImmediateWraps
  intro x kk
  refine ⟨decodeWord_wordXKK 0x7 x kk rfl rfl, fun s => ⟨s.setV x (s.v[x] + kk), rfl, ?_, s.setV_onlyRegs x _,
    s.setV_onlyChanges x _⟩⟩
  rw [setV_get_self]
  exact BitVec.toNat_add s.v[x] kk

/-- Settles O32: the copy is one register write of Vy. -/
theorem copyRegister : Obligations.CopyRegister := by
  unfold Obligations.CopyRegister
  intro x y
  refine ⟨decodeWord_wordXYN 0x8 x y 0x0 rfl rfl, fun s => ?_⟩
  exact ⟨_, rfl, setV_get_self s x s.v[y], s.setV_onlyRegs x _, s.setV_onlyChanges x _⟩

/-- Settles O33: each is one register write, of the or, the and, the exclusive or of two bytes, which act bit by bit. -/
theorem logicBitByBit : Obligations.LogicBitByBit := by
  unfold Obligations.LogicBitByBit
  intro x y s
  refine ⟨s.setV x (s.v[x] ||| s.v[y]), s.setV x (s.v[x] &&& s.v[y]), s.setV x (s.v[x] ^^^ s.v[y]), rfl, rfl, rfl,
    fun b _ => ?_, s.setV_onlyRegs x _, s.setV_onlyChanges x _, s.setV_onlyRegs x _, s.setV_onlyChanges x _,
    s.setV_onlyRegs x _, s.setV_onlyChanges x _⟩
  rw [setV_get_self, setV_get_self, setV_get_self]
  exact ⟨BitVec.getLsbD_or, BitVec.getLsbD_and, BitVec.getLsbD_xor⟩

/-! ### Sums and differences (41_alu.md R126, R127, R129) -/

/-- Settles O34: the flag is written last, so it is the carry for every x, and Vx keeps the sum unless x = F. -/
theorem addWithCarry : Obligations.AddWithCarry := by
  unfold Obligations.AddWithCarry
  intro x y s
  refine ⟨(s.setV x (s.v[x] + s.v[y])).setFlag (carry s.v[x] s.v[y]), rfl, fun hx => ?_, ?_,
    setV_setFlag_onlyRegs s x _ _, setV_setFlag_onlyChanges s x _ _⟩
  · rw [setV_setFlag_get s _ _ hx]
    exact BitVec.toNat_add s.v[x] s.v[y]
  · rw [setFlag_get_vf]
    exact flagByte_carry_toNat s.v[x] s.v[y]

/-- Settles O35: as for the sum, with the operands the other way round in 8xy7. -/
theorem subtractWithoutBorrow : Obligations.SubtractWithoutBorrow := by
  unfold Obligations.SubtractWithoutBorrow
  intro x y s
  refine ⟨(s.setV x (s.v[x] - s.v[y])).setFlag (noBorrow s.v[x] s.v[y]),
    (s.setV x (s.v[y] - s.v[x])).setFlag (noBorrow s.v[y] s.v[x]), rfl, rfl, fun hx => ?_, ?_, ?_,
    setV_setFlag_onlyRegs s x _ _, setV_setFlag_onlyChanges s x _ _,
    setV_setFlag_onlyRegs s x _ _, setV_setFlag_onlyChanges s x _ _⟩
  · rw [setV_setFlag_get s _ _ hx, setV_setFlag_get s _ _ hx]
    exact ⟨byte_sub_toNat s.v[x] s.v[y], byte_sub_toNat s.v[y] s.v[x]⟩
  · rw [setFlag_get_vf]
    exact flagByte_noBorrow_toNat s.v[x] s.v[y]
  · rw [setFlag_get_vf]
    exact flagByte_noBorrow_toNat s.v[y] s.v[x]

/-! ### Shifts (41_alu.md R128, R130) -/

/-- Settles O36: the flag is written first, so with x ≠ F the shift reads the old Vx, and with x = F it reads the flag. -/
theorem shiftRight : Obligations.ShiftRight := by
  unfold Obligations.ShiftRight
  intro x y s
  refine ⟨(s.setFlag (bitOutRight s.v[x])).setV x ((s.setFlag (bitOutRight s.v[x])).v[x] >>> 1), rfl,
    fun hx => ⟨?_, ?_⟩, ?_, setFlag_setV_onlyRegs s x _ _, setFlag_setV_onlyChanges s x _ _⟩
  · rw [setV_get_self, setFlag_get_of_ne s _ hx]
    exact byte_ushiftRight_one_toNat s.v[x]
  · rw [setFlag_setV_get_vf s _ _ hx]
    exact flagByte_bitOutRight_toNat s.v[x]
  · rintro rfl
    rw [setV_get_self, setFlag_get_vf]
    exact flagByte_ushiftRight_one _

/-- Settles O37: the same order of writes; with x = F the flag, 0 or 1, is what is doubled. -/
theorem shiftLeft : Obligations.ShiftLeft := by
  unfold Obligations.ShiftLeft
  intro x y s
  refine ⟨(s.setFlag (bitOutLeft s.v[x])).setV x ((s.setFlag (bitOutLeft s.v[x])).v[x] <<< 1), rfl,
    fun hx => ⟨?_, ?_⟩, ?_, setFlag_setV_onlyRegs s x _ _, setFlag_setV_onlyChanges s x _ _⟩
  · rw [setV_get_self, setFlag_get_of_ne s _ hx]
    exact byte_shiftLeft_one_toNat s.v[x]
  · rw [setFlag_setV_get_vf s _ _ hx]
    exact flagByte_bitOutLeft_toNat s.v[x]
  · rintro rfl
    rw [setV_get_self, setFlag_get_vf, flagByte_shiftLeft_one_toNat, flagByte_bitOutLeft_toNat]

/-! ### Random (41_alu.md R131) -/

/-- Settles O38: one register write of the drawn byte AND kk, then the draw counter, which no register depends on. -/
theorem randomByteIsMasked : Obligations.RandomByteIsMasked := by
  unfold Obligations.RandomByteIsMasked
  intro x kk s
  have hx : (s.setV x (Config.randomByte s.draws &&& kk)).drawn.v[x] = Config.randomByte s.draws &&& kk :=
    setV_get_self s x _
  refine ⟨(s.setV x (Config.randomByte s.draws &&& kk)).drawn, rfl, fun b _ => ?_, ?_, rfl, s.setV_onlyRegs x _,
    ((s.setV_onlyChanges x _).mono (by simp)).trans ((State.drawn_onlyChanges _).mono (by simp))⟩
  · rw [hx]
    exact BitVec.getLsbD_and
  · rintro rfl
    rw [hx]
    exact BitVec.and_zero

end Sys2Proof.Machine

/-! # Index and memory (O39 to O44)

An instruction of 42_index_memory.md writes I alone, or ends in a store or a load through I. What a store through I leaves
readable, and when an access through I faults, is said once below; an obligation adds which bytes are moved. -/

namespace Sys2Proof.Machine

open Sys2Proof

/-! ### Frames of the index, memory and register-file updates -/

theorem State.setI_onlyChanges (s : State) (w : Word) : OnlyChanges [.i] s (s.setI w) := by
  intro p hp
  cases p
  case i => exact absurd (List.mem_singleton_self _) hp
  case mem => exact .refl s .mem
  all_goals rfl

theorem State.setMem_onlyChanges (s : State) (m : Memory) : OnlyChanges [.mem] s (s.setMem m) := by
  intro p hp
  cases p
  case mem => exact absurd (List.mem_singleton_self _) hp
  all_goals rfl

theorem State.setRegs_onlyChanges (s : State) (v : Vector Byte 16) : OnlyChanges [.v] s (s.setRegs v) := by
  intro p hp
  cases p
  case v => exact absurd (List.mem_singleton_self _) hp
  case mem => exact .refl s .mem
  all_goals rfl

/-! ### Accesses through I that leave memory (60_exceptions.md R214) -/

theorem finish_storeAtI_raises {s : State} {bs : List Byte} (hb : bs ≠ []) (h : 4096 < s.i.toNat + bs.length) :
    Raises (finish s (storeAtI s bs)) (.memoryOutOfRange (max s.i.toNat 0x1000)) := by
  rw [storeAtI_error hb h]
  exact raises_raise _ s

theorem exec_ldB_raises {s : State} (x : RegIndex) (h : 4096 ≤ s.i.toNat + 2) :
    Raises (exec (.ldB x) s) (.memoryOutOfRange (max s.i.toNat 0x1000)) :=
  finish_storeAtI_raises (bs := bcdDigits (s.getV x)) (List.cons_ne_nil _ _) (Nat.lt_succ_of_le h)

theorem exec_storeRegs_raises {s : State} {x : RegIndex} (h : 4096 ≤ s.i.toNat + x.val) :
    Raises (exec (.storeRegs x) s) (.memoryOutOfRange (max s.i.toNat 0x1000)) := by
  have hlen := regsThrough_length s x
  exact finish_storeAtI_raises (List.ne_nil_of_length_pos (by omega)) (by omega)

theorem exec_loadRegs_raises {s : State} {x : RegIndex} (h : 4096 ≤ s.i.toNat + x.val) :
    Raises (exec (.loadRegs x) s) (.memoryOutOfRange (max s.i.toNat 0x1000)) := by
  rw [exec, execLoadRegs, loadAtI_error h]
  exact raises_raise _ s

theorem exec_drw_raises {s : State} (x y : RegIndex) {n : Nat} (hn : 1 ≤ n) (h : 4096 < s.i.toNat + n) :
    Raises (exec (.drw x y n) s) (.memoryOutOfRange (max s.i.toNat 0x1000)) := by
  rw [exec, execDrw_error hn h]
  exact raises_raise _ s

/-! ### Stores through I that stay in memory -/

/-- An instruction that ends in an in-range store through I completes: its bytes stand from I up, every other byte and every
other part of the state is as before (20_memory.md R54, R58). -/
theorem finish_storeAtI_stores {s : State} (hm : s.mem.wf) {bs : List Byte} (h : s.i.toNat + bs.length ≤ 4096) :
    ∃ t, finish s (storeAtI s bs) = .next t ∧
      (∀ k, k < bs.length → t.mem.byteAt (s.i.toNat + k) = bs.getD k 0) ∧
      (∀ a, a < s.i.toNat ∨ s.i.toNat + bs.length ≤ a → t.mem.byteAt a = s.mem.byteAt a) ∧ OnlyChanges [.mem] s t := by
  obtain ⟨m, hstore, -, hbytes⟩ := storeAtI_ok hm h
  refine ⟨s.setMem m, by rw [hstore, finish_ok], fun k hk => ?_, fun a ha => ?_, s.setMem_onlyChanges m⟩
  · rw [State.setMem_mem, hbytes, if_pos (by omega), Nat.add_sub_cancel_left]
  · rw [State.setMem_mem, hbytes, if_neg (by omega)]

/-! ### The index register (42_index_memory.md R150–R152) -/

/-- Settles O39: the load writes I alone, and from 0xFFF every access of two bytes or more leaves memory at 0x1000. -/
theorem loadIndex : Obligations.LoadIndex := by
  unfold Obligations.LoadIndex
  intro nnn
  refine ⟨decodeWord_wordNNN 0xA nnn rfl rfl, fun s => ?_⟩
  have hi : (s.setI (immTarget nnn)).i.toNat = nnn.toNat := immTarget_toNat nnn
  refine ⟨s.setI (immTarget nnn), rfl, hi, by omega, s.setI_onlyChanges _, fun hnnn x y => ?_⟩
  have hfirst : max (s.setI (immTarget nnn)).i.toNat 0x1000 = 0x1000 := by omega
  rw [← hfirst]
  exact ⟨exec_ldB_raises x (by omega),
    fun hx => ⟨exec_storeRegs_raises (by omega), exec_loadRegs_raises (by omega)⟩,
    fun n hn _ => exec_drw_raises x y (by omega) (by omega)⟩

/-- Settles O40: the sum is a 16-bit one, of I and Vx zero-extended, and I alone is written. -/
theorem addToIndexWraps : Obligations.AddToIndexWraps := by
  unfold Obligations.AddToIndexWraps
  intro x s
  refine ⟨s.setI (s.i + s.v[x].setWidth 16), rfl, ?_, s.setI_onlyChanges _⟩
  rw [State.setI_i, BitVec.toNat_add, BitVec.toNat_setWidth_of_le (by decide)]

/-- Settles O41: `glyphAddr_toNat` gives the address, and I alone is written. -/
theorem glyphAddress : Obligations.GlyphAddress := by
  unfold Obligations.GlyphAddress
  intro x s
  exact ⟨s.setI (glyphAddr s.v[x]), rfl, glyphAddr_toNat s.v[x], s.setI_onlyChanges _⟩

/-! ### Memory transfers (42_index_memory.md R153–R155) -/

theorem bcdDigits_length (b : Byte) : (bcdDigits b).length = 3 := rfl

/-- The stored digits as numbers (42_index_memory.md R153). A byte has at most three, so the hundreds digit needs no mod 10. -/
theorem bcdDigits_toNat (b : Byte) :
    ((bcdDigits b).getD 0 0).toNat = b.toNat / 100 ∧ ((bcdDigits b).getD 1 0).toNat = b.toNat / 10 % 10 ∧
      ((bcdDigits b).getD 2 0).toNat = b.toNat % 10 :=
  ⟨BitVec.toNat_udiv, BitVec.toNat_umod, BitVec.toNat_umod⟩

/-- Settles O42: the three digits are stored through I. -/
theorem storeDecimalDigits : Obligations.StoreDecimalDigits := by
  unfold Obligations.StoreDecimalDigits
  intro x s hm hfits
  obtain ⟨t, hexec, hstored, hkept, hframe⟩ := finish_storeAtI_stores hm (bs := bcdDigits s.v[x]) hfits
  have hlen := bcdDigits_length s.v[x]
  obtain ⟨hhundreds, htens, hones⟩ := bcdDigits_toNat s.v[x]
  have hdigit (k : Nat) (hk : k < 3) := congrArg BitVec.toNat (hstored k (hlen ▸ hk))
  exact ⟨t, hexec, (hdigit 0 (by decide)).trans hhundreds, (hdigit 1 (by decide)).trans htens,
    (hdigit 2 (by decide)).trans hones, hkept, hframe⟩

/-- Settles O43: the bytes stored through I are the registers V0 to Vx (`regsThrough_getD`). -/
theorem storeRegisters : Obligations.StoreRegisters := by
  unfold Obligations.StoreRegisters
  intro x s hm hfits
  have hlen := regsThrough_length s x
  obtain ⟨t, hexec, hstored, hkept, hframe⟩ := finish_storeAtI_stores hm (bs := regsThrough s x) (by omega)
  refine ⟨t, hexec, fun j hj => ?_, fun a ha => hkept a (by omega), hframe⟩
  have hjx : j.val ≤ x.val := hj
  rw [hstored j.val (by omega), regsThrough_getD s x j hj]

/-- Settles O44: `loadAtI_ok` gives every register after the load, and the register file alone is written. -/
theorem loadRegisters : Obligations.LoadRegisters := by
  unfold Obligations.LoadRegisters
  intro x s hfits
  obtain ⟨v, hload, hregs⟩ := loadAtI_ok hfits
  refine ⟨s.setRegs v, ?_, fun j hj => ?_, fun j hj => ?_, s.setRegs_onlyChanges v⟩
  · rw [exec, execLoadRegs, hload, finish_ok]
  · rw [State.setRegs_v, hregs, if_pos hj]
  · rw [State.setRegs_v, hregs, if_neg (Fin.not_le.2 hj)]

end Sys2Proof.Machine

/-! # Display (O45 to O47)

A draw plots a duplicate-free list of cells (`spritePoints`); here that list is tied to `Plots`, and what a committed draw
leaves readable is said once. Drawing twice is two uses of the one-draw statement. -/

namespace Sys2Proof.Machine

open Sys2Proof

/-! ### Frames of the framebuffer and redraw updates -/

theorem State.setFb_onlyChanges (s : State) (fb : Framebuffer) : OnlyChanges [.fb] s (s.setFb fb) := by
  intro p hp
  cases p
  case fb => exact absurd (List.mem_singleton_self _) hp
  case mem => exact .refl s .mem
  all_goals rfl

theorem State.setRedraw_onlyChanges (s : State) (b : Bool) : OnlyChanges [.redraw] s (s.setRedraw b) := by
  intro p hp
  cases p
  case redraw => exact absurd (List.mem_singleton_self _) hp
  case mem => exact .refl s .mem
  all_goals rfl

theorem State.setFb_setRedraw_onlyChanges (s : State) (fb : Framebuffer) (b : Bool) :
    OnlyChanges [.fb, .redraw] s ((s.setFb fb).setRedraw b) :=
  ((s.setFb_onlyChanges fb).mono (by simp)).trans ((State.setRedraw_onlyChanges _ b).mono (by simp))

/-! ### What a committed draw leaves -/

@[simp] theorem State.commitDraw_fb (s : State) (cv : Canvas) : (s.commitDraw cv).fb = cv.fb := rfl

@[simp] theorem State.commitDraw_redraw (s : State) (cv : Canvas) :
    (s.commitDraw cv).redraw = (s.redraw || cv.changed) := rfl

theorem State.commitDraw_vf (s : State) (cv : Canvas) : (s.commitDraw cv).v[vf] = flagByte cv.collision :=
  setFlag_get_vf _ cv.collision

theorem State.commitDraw_onlyRegs (s : State) (cv : Canvas) : OnlyRegs [vf] s (s.commitDraw cv) :=
  State.setFlag_onlyRegs _ cv.collision

theorem State.commitDraw_onlyChanges (s : State) (cv : Canvas) :
    OnlyChanges [.fb, .v, .redraw] s (s.commitDraw cv) :=
  ((s.setFb_setRedraw_onlyChanges cv.fb _).mono (by simp)).trans
    ((State.setFlag_onlyChanges _ cv.collision).mono (by simp))

/-! ### The cells an instruction plots -/

/-- The sprite rows of a `Dxyn`, mem[I..I+n−1] (43_display.md R171). -/
def spriteRows (s : State) (n : Nat) : List Byte := (List.range n).map fun r => s.mem.byteAt (s.i.toNat + r)

/-- The cells that a `Dxyn` plots, in its order. -/
def plottedCells (s : State) (x y : RegIndex) (n : Nat) : List (Fin 64 × Fin 32) :=
  spritePoints s.v[x] s.v[y] (spriteRows s n)

/-- The canvas that a `Dxyn` commits. -/
def drawnCanvas (s : State) (x y : RegIndex) (n : Nat) : Canvas :=
  plotAll (plottedCells s x y n) { fb := s.fb, collision := false, changed := false }

theorem spriteRows_length (s : State) (n : Nat) : (spriteRows s n).length = n := by
  rw [spriteRows, List.length_map, List.length_range]

theorem spriteRows_getD (s : State) {n r : Nat} (h : r < n) :
    (spriteRows s n).getD r 0 = s.mem.byteAt (s.i.toNat + r) := by
  rw [List.getD_eq_getElem?_getD, List.getElem?_eq_getElem (by rw [spriteRows_length]; exact h), Option.getD_some]
  simp only [spriteRows, List.getElem_map, List.getElem_range]

theorem nodup_plottedCells (s : State) (x y : RegIndex) {n : Nat} (h : n ≤ 32) : (plottedCells s x y n).Nodup :=
  nodup_spritePoints _ _ ((spriteRows_length s n).symm ▸ h)

/-- The plotted cells are those of the independent description `Plots`. -/
theorem mem_plottedCells {s : State} {x y : RegIndex} {n : Nat} {X : Fin 64} {Y : Fin 32} :
    (X, Y) ∈ plottedCells s x y n ↔ Plots s x y n X Y := by
  rw [plottedCells, mem_spritePoints, spriteRows_length, Plots]
  refine exists_congr fun r => exists_congr fun c => and_congr_right fun hr => ?_
  rw [spriteRows_getD s hr, spriteBit]

theorem exec_drw_ok {s : State} {n : Nat} (x y : RegIndex) (h : n = 0 ∨ s.i.toNat + n ≤ 4096) :
    exec (.drw x y n) s = .next (s.commitDraw (drawnCanvas s x y n)) := by
  rw [exec, execDrw_ok h, drawSprite_eq]
  rfl

/-- A draw inverts the cells of `Plots` and no other: each is plotted once (43_display.md R171). -/
theorem drawnCanvas_cell {s : State} {x y : RegIndex} {n : Nat} (h : n ≤ 32) (X : Fin 64) (Y : Fin 32) :
    (Plots s x y n X Y → (drawnCanvas s x y n).fb.cell X Y = !s.fb.cell X Y) ∧
      (¬ Plots s x y n X Y → (drawnCanvas s x y n).fb.cell X Y = s.fb.cell X Y) := by
  rw [drawnCanvas, plotAll_cell (nodup_plottedCells s x y h)]
  exact ⟨fun hp => if_pos (mem_plottedCells.2 hp), fun hp => if_neg fun hmem => hp (mem_plottedCells.1 hmem)⟩

/-- The collision of a draw: a plotted cell was on before it (43_display.md R173). -/
theorem drawnCanvas_collision {s : State} {x y : RegIndex} {n : Nat} (h : n ≤ 32) :
    (drawnCanvas s x y n).collision = true ↔ ∃ X Y, Plots s x y n X Y ∧ s.fb.cell X Y = true := by
  simp only [drawnCanvas, plotAll_collision (nodup_plottedCells s x y h), Bool.false_eq_true, false_or, Prod.exists,
    mem_plottedCells]

theorem drawnCanvas_changed {s : State} {x y : RegIndex} {n : Nat} :
    (drawnCanvas s x y n).changed = true ↔ ∃ X Y, Plots s x y n X Y := by
  simp only [drawnCanvas, plotAll_changed, Bool.false_or, Bool.not_eq_true', List.isEmpty_eq_false_iff_exists_mem,
    Prod.exists, mem_plottedCells]

/-- Equal bytes from I, equal I and equal coordinate registers plot equal cells. -/
theorem plots_congr {s t : State} {x y : RegIndex} (hmem : t.mem = s.mem) (hi : t.i = s.i) (hx : t.v[x] = s.v[x])
    (hy : t.v[y] = s.v[y]) (n : Nat) (X : Fin 64) (Y : Fin 32) : Plots t x y n X Y ↔ Plots s x y n X Y := by
  rw [Plots, Plots, hmem, hi, hx, hy]

/-! ### The instructions (43_display.md R170–R173) -/

/-- Settles O45: every cell of `Framebuffer.clear` is off. -/
theorem clearScreen : Obligations.ClearScreen := by
  unfold Obligations.ClearScreen
  exact ⟨decodeWord_encode (i := .cls) rfl, fun s => ⟨_, rfl, Framebuffer.cell_clear, rfl,
    s.setFb_setRedraw_onlyChanges Framebuffer.clear true⟩⟩

/-- Settles O46: `drawnCanvas` has the cells, `collision` and `changed` that the statement asks for, and the commit writes
them to the framebuffer, VF and redraw. (`drawSprite` is the model's own name.) -/
theorem drawSprite_flips_plotted_cells : Obligations.DrawSprite := by
  unfold Obligations.DrawSprite
  intro x y n s hn hfits
  have hrows : n ≤ 32 := by omega
  have hcollision := drawnCanvas_collision (s := s) (x := x) (y := y) hrows
  have hchanged := drawnCanvas_changed (s := s) (x := x) (y := y) (n := n)
  refine ⟨s.commitDraw (drawnCanvas s x y n), exec_drw_ok x y (by omega), drawnCanvas_cell hrows, fun h => ?_, fun h => ?_,
    fun h => ?_, fun h => ?_, s.commitDraw_onlyRegs _, s.commitDraw_onlyChanges _⟩
  · rw [State.commitDraw_vf, hcollision.2 h]; rfl
  · rw [State.commitDraw_vf, Bool.eq_false_iff.2 fun hc => h (hcollision.1 hc)]; rfl
  · rw [State.commitDraw_redraw, hchanged.2 h, Bool.or_true]
  · rw [State.commitDraw_redraw, Bool.eq_false_iff.2 fun hc => h (hchanged.1 hc), Bool.or_false]

/-- Settles O47: the first draw keeps what the second reads but the cells, so both plot the same cells; each is inverted twice,
and was on before the second draw exactly if it was off before the first. -/
theorem drawTwiceErases : Obligations.DrawTwiceErases := by
  unfold Obligations.DrawTwiceErases
  intro x y n s hx hy hn hfits
  obtain ⟨t, hfirst, hcell, -, -, -, -, hregs, hframe⟩ := drawSprite_flips_plotted_cells x y n s hn hfits
  have hi : t.i = s.i := hframe .i (by decide)
  have hsame := plots_congr (hframe .mem (by decide)).1 hi (hregs x fun h => hx (List.mem_singleton.1 h))
    (hregs y fun h => hy (List.mem_singleton.1 h)) n
  obtain ⟨u, hsecond, hcell', hon, hoff, -⟩ := drawSprite_flips_plotted_cells x y n t hn (by rwa [hi])
  have hflipped : (∃ X Y, Plots t x y n X Y ∧ t.fb.cell X Y = true) ↔
      ∃ X Y, Plots s x y n X Y ∧ s.fb.cell X Y = false := by
    refine exists_congr fun X => exists_congr fun Y => ?_
    rw [hsame]
    refine and_congr_right fun h => ?_
    rw [(hcell X Y).1 h, Bool.not_eq_true']
  refine ⟨t, u, hfirst, hsecond, Framebuffer.ext_cell fun X Y => ?_, fun h => hon (hflipped.2 h),
    fun h => hoff fun ht => h (hflipped.1 ht)⟩
  by_cases h : Plots s x y n X Y
  · rw [(hcell' X Y).1 ((hsame X Y).2 h), (hcell X Y).1 h, Bool.not_not]
  · rw [(hcell' X Y).2 fun ht => h ((hsame X Y).1 ht), (hcell X Y).2 h]

end Sys2Proof.Machine

/-! # Timers and keypad (O48 to O51)

A key skip is a conditional skip on one cell of the keypad, Fx0A branches on `lowestPressed`, and a timer transfer is one
named update. What these leave is said once below; the busy-wait of Fx0A is a rewind that undoes the advance of the step
(44_timers_keypad.md). -/

namespace Sys2Proof.Machine

open Sys2Proof

/-! ### Frames of the timer updates -/

theorem State.setDt_onlyChanges (s : State) (b : Byte) : OnlyChanges [.dt] s (s.setDt b) := by
  intro p hp
  cases p
  case dt => exact absurd (List.mem_singleton_self _) hp
  case mem => exact .refl s .mem
  all_goals rfl

theorem State.setSt_onlyChanges (s : State) (b : Byte) : OnlyChanges [.st] s (s.setSt b) := by
  intro p hp
  cases p
  case st => exact absurd (List.mem_singleton_self _) hp
  case mem => exact .refl s .mem
  all_goals rfl

/-! ### The keypad -/

/-- A key write, read back at any key. -/
theorem setKeyAt_get (s : State) (k : Fin 16) (p : Bool) (j : Fin 16) :
    (s.setKeyAt k p).key[j] = if j = k then p else s.key[j] := by
  change (s.key.set k.val p)[j.val] = _
  rw [Vector.getElem_set]
  simp only [Fin.ext_iff, eq_comm]
  rfl

/-- A key pressed on a keypad with no other key down is the lowest one. -/
theorem lowestPressed_setKeyAt {s : State} (h : ∀ j : Fin 16, s.key[j] = false) (k : Fin 16) :
    lowestPressed (s.setKeyAt k true) = some k :=
  lowestPressed_some ((setKeyAt_get s k true k).trans (if_pos rfl)) fun j hj =>
    (setKeyAt_get s k true j).trans ((if_neg (Fin.ne_of_lt hj)).trans (h j))

theorem keyByte_toNat (k : Fin 16) : (BitVec.ofNat 8 k.val).toNat = k.val :=
  Nat.mod_eq_of_lt (Nat.lt_trans k.isLt (by decide))

theorem whenRunning_of_running {s : State} (hrun : s.status = .running) (r : Reaction) : whenRunning s r = r := by
  rw [whenRunning, hrun]

theorem command_setKey {s : State} (hrun : s.status = .running) (k : Fin 16) (p : Bool) :
    command (.setKey k.val p) s = .next (s.setKeyAt k p, .ok) :=
  (whenRunning_of_running hrun _).trans (dif_pos k.isLt)

/-! ### Fx0A on the two states of the keypad (44_timers_keypad.md R193) -/

theorem exec_ldVxK_of_some (x : RegIndex) {s : State} {k : Fin 16} (h : lowestPressed s = some k) :
    exec (.ldVxK x) s = .next (s.setV x (BitVec.ofNat 8 k.val)) := by
  rw [exec, execLdVxK, h]

theorem exec_ldVxK_of_none (x : RegIndex) {s : State} (h : lowestPressed s = none) :
    exec (.ldVxK x) s = .next (s.setPc (s.pc - 2)) := by
  rw [exec, execLdVxK, h]

/-- The rewind of Fx0A undoes the advance of its step, at the wrap of pc too. -/
theorem State.advance_rewind (s : State) : s.advance.setPc (s.advance.pc - 2) = s := by
  have hpc : s.advance.pc - 2 = s.pc := BitVec.add_sub_cancel s.pc 2
  rw [hpc]
  rfl

/-- Settles O51: without a key the rewind restores the whole state. The key then set is the lowest pressed one, and setting
it leaves the fetch as it was. -/
theorem keyWaitIsIdempotent : Obligations.KeyWaitIsIdempotent := by
  unfold Obligations.KeyWaitIsIdempotent
  intro s x hrun hfetch hkeys
  constructor
  · calc step s = exec (.ldVxK x) s.advance := step_of_fetchInstr_ok hrun hfetch
      _ = .next (s.advance.setPc (s.advance.pc - 2)) := exec_ldVxK_of_none x (lowestPressed_none hkeys)
      _ = .next s := congrArg _ s.advance_rewind
  · intro k
    have hlow : lowestPressed (s.setKeyAt k true).advance = some k := lowestPressed_setKeyAt hkeys k
    have hfetch' : fetchInstr (s.setKeyAt k true) = .ok (.ldVxK x) := (fetchInstr_congr rfl rfl).trans hfetch
    have hstep := (step_of_fetchInstr_ok (s := s.setKeyAt k true) hrun hfetch').trans (exec_ldVxK_of_some x hlow)
    exact ⟨_, _, command_setKey hrun k true, hstep,
      (congrArg BitVec.toNat (setV_get_self _ x _)).trans (keyByte_toNat k), rfl⟩

/-- Settles O50: the two cases of `lowestPressed`. -/
theorem waitForKey : Obligations.WaitForKey := by
  unfold Obligations.WaitForKey
  refine fun x s => ⟨fun k hk hlow => ?_, fun hkeys => ?_⟩
  · exact ⟨_, exec_ldVxK_of_some x (lowestPressed_some hk hlow),
      (congrArg BitVec.toNat (setV_get_self s x _)).trans (keyByte_toNat k), s.setV_onlyRegs x _, s.setV_onlyChanges x _⟩
  · exact ⟨_, exec_ldVxK_of_none x (lowestPressed_none hkeys), BitVec.sub_add_cancel s.pc 2, s.setPc_onlyChanges _⟩

/-! ### Key skips (44_timers_keypad.md R190, R191, R196) -/

theorem State.skipIf_key_pc_toNat (s : State) (p wanted : Bool) :
    (s.skipIf (p == wanted)).pc.toNat = if p = wanted then (s.pc.toNat + 2) % 65536 else s.pc.toNat := by
  rw [State.skipIf_pc_toNat]
  simp only [beq_iff_eq]

theorem finish_skipOnKey_ok {s : State} {v : Byte} {k : Fin 16} (h : v.toNat = k.val) (wanted : Bool) :
    finish s (skipOnKey s v wanted) = .next (s.skipIf (s.key[k] == wanted)) := by
  rw [skipOnKey_ok h, finish_ok]

theorem finish_skipOnKey_raises (s : State) {v : Byte} (h : 15 < v.toNat) (wanted : Bool) :
    Raises (finish s (skipOnKey s v wanted)) (.keyIndexOutOfRange v) := by
  rw [skipOnKey_error h]
  exact raises_raise _ s

/-- Settles O48: both are a `skipIf` on the cell of key Vx, compared with pressed and with released; a Vx over 15 has no
cell. -/
theorem keySkips : Obligations.KeySkips := by
  unfold Obligations.KeySkips
  refine fun x s => ⟨fun k hk => ?_, fun hv => ?_⟩
  · exact ⟨_, _, finish_skipOnKey_ok hk true, finish_skipOnKey_ok hk false, s.skipIf_key_pc_toNat _ _,
      s.skipIf_key_pc_toNat _ _, s.skipIf_onlyChanges _, s.skipIf_onlyChanges _⟩
  · exact ⟨finish_skipOnKey_raises s hv true, finish_skipOnKey_raises s hv false⟩

/-! ### Timer transfers (44_timers_keypad.md R192, R194, R195) -/

/-- Settles O49: each is one named update, of Vx, of DT or of ST, with its frame. -/
theorem timerTransfers : Obligations.TimerTransfers := by
  unfold Obligations.TimerTransfers
  intro x
  refine ⟨decodeWord_wordXKK 0xF x 0x07 rfl rfl, decodeWord_wordXKK 0xF x 0x15 rfl rfl,
    decodeWord_wordXKK 0xF x 0x18 rfl rfl, fun s => ?_⟩
  exact ⟨s.setV x s.dt, s.setDt s.v[x], s.setSt s.v[x], rfl, rfl, rfl, setV_get_self s x s.dt, rfl, rfl,
    s.setV_onlyRegs x _, s.setV_onlyChanges x _, s.setDt_onlyChanges _, s.setSt_onlyChanges _⟩

end Sys2Proof.Machine

/-! # Faults and host commands (O9, O57, O6, O7, O8, O52, O53, O54)

Each instruction that can raise a fault splits on its own condition (60_exceptions.md R212–R215): `Raises` where it holds, a
completed state where it fails. From this a step of a running machine always has a next state, and the `step` command reads
its reply off that state's status. The other commands run behind `whenRunning`, one rule per status. -/

namespace Sys2Proof.Machine

open Sys2Proof

/-! ### The fault of an instruction (60_exceptions.md R212–R215, R220) -/

/-- The instruction answered a next state, with the status that its own fault, or none, leaves; `Raises` is the
first case. -/
def EndsWith (own : Option Fault) (r : Result) : Prop := ∃ t, r = .next t ∧ t.status = statusAfter own

theorem endsWith_some_iff {f : Fault} {r : Result} : EndsWith (some f) r ↔ Raises r f := Iff.rfl

theorem endsWith_none {s t : State} {r : Result} (h : r = .next t) (hkept : t.status = s.status)
    (hrun : s.status = .running) : EndsWith none r := ⟨t, h, hkept.trans hrun⟩

/-- A fault with a condition: raised where the condition holds, and the instruction completes where it fails. -/
theorem endsWith_ite {c : Prop} [Decidable c] {f : Fault} {r : Result} (hfault : c → Raises r f)
    (hrest : ¬ c → EndsWith none r) : EndsWith (if c then some f else none) r := by
  split
  · next h => exact endsWith_some_iff.2 (hfault h)
  · next h => exact hrest h

section Running

variable {s : State} (hrun : s.status = .running)
include hrun

theorem exec_ret_endsWith : EndsWith (ownFault .ret s) (exec .ret s) :=
  endsWith_ite exec_ret_raises fun h => endsWith_none (exec_ret (Nat.pos_of_ne_zero h)) rfl hrun

theorem exec_call_endsWith (nnn : BitVec 12) : EndsWith (ownFault (.call nnn) s) (exec (.call nnn) s) :=
  endsWith_ite (exec_call_raises nnn) fun h => endsWith_none (exec_call nnn (by omega)) rfl hrun

/-- A draw of no rows reads no memory, so it has no address to fault on. -/
theorem exec_drw_endsWith (x y : RegIndex) (n : Nat) : EndsWith (ownFault (.drw x y n) s) (exec (.drw x y n) s) :=
  endsWith_ite (fun ⟨hn, h⟩ => exec_drw_raises x y hn (by omega))
    fun h => endsWith_none (exec_drw_ok x y (by omega)) rfl hrun

theorem finish_storeAtI_completes {bs : List Byte} (h : s.i.toNat + bs.length ≤ 4096) :
    EndsWith none (finish s (storeAtI s bs)) := by
  obtain ⟨m, hstore⟩ := storeAtI_completes s h
  rw [hstore]
  exact endsWith_none (finish_ok s _) rfl hrun

theorem exec_ldB_endsWith (x : RegIndex) : EndsWith (ownFault (.ldB x) s) (exec (.ldB x) s) :=
  endsWith_ite (exec_ldB_raises x) fun h =>
    finish_storeAtI_completes hrun (bs := bcdDigits (s.getV x)) (Nat.lt_of_not_le h)

theorem exec_storeRegs_endsWith (x : RegIndex) : EndsWith (ownFault (.storeRegs x) s) (exec (.storeRegs x) s) :=
  endsWith_ite exec_storeRegs_raises fun h =>
    finish_storeAtI_completes hrun (by rw [regsThrough_length]; omega)

theorem exec_loadRegs_endsWith (x : RegIndex) : EndsWith (ownFault (.loadRegs x) s) (exec (.loadRegs x) s) := by
  refine endsWith_ite exec_loadRegs_raises fun h => ?_
  obtain ⟨v, hload, -⟩ := loadAtI_ok (Nat.lt_of_not_le h)
  rw [exec, execLoadRegs, hload]
  exact endsWith_none (finish_ok s _) rfl hrun

theorem finish_skipOnKey_endsWith (v : Byte) (wanted : Bool) :
    EndsWith (if 15 < v.toNat then some (.keyIndexOutOfRange v) else none) (finish s (skipOnKey s v wanted)) :=
  endsWith_ite (finish_skipOnKey_raises s · wanted) fun h =>
    endsWith_none (finish_skipOnKey_ok (k := ⟨v.toNat, by omega⟩) rfl wanted) (s.skipIf_status _) hrun

theorem exec_ldVxK_endsWith (x : RegIndex) : EndsWith (ownFault (.ldVxK x) s) (exec (.ldVxK x) s) := by
  cases hkey : lowestPressed s with
  | some k => exact endsWith_none (exec_ldVxK_of_some x hkey) rfl hrun
  | none => exact endsWith_none (exec_ldVxK_of_none x hkey) rfl hrun

/-- Those not named have no fault and complete by one or two named updates, none of the status. -/
theorem exec_endsWith (i : Instr) : EndsWith (ownFault i s) (exec i s) := by
  cases i
  case ret => exact exec_ret_endsWith hrun
  case call nnn => exact exec_call_endsWith hrun nnn
  case drw x y n => exact exec_drw_endsWith hrun x y n
  case ldB x => exact exec_ldB_endsWith hrun x
  case storeRegs x => exact exec_storeRegs_endsWith hrun x
  case loadRegs x => exact exec_loadRegs_endsWith hrun x
  case skp x | sknp x => exact finish_skipOnKey_endsWith hrun s.v[x] _
  case ldVxK x => exact exec_ldVxK_endsWith hrun x
  case seImm | sneImm | seReg | sneReg => exact endsWith_none rfl (s.skipIf_status _) hrun
  all_goals exact endsWith_none rfl rfl hrun

end Running

/-- Settles O9: each instruction with a fault of its own splits on its condition; the others complete (`exec_endsWith`). -/
theorem execFaultsExactlyAsListed : Obligations.ExecFaultsExactlyAsListed := by
  unfold Obligations.ExecFaultsExactlyAsListed
  intro i s hrun
  exact exec_endsWith hrun i

/-! ### The step and its command (60_exceptions.md R217, R218, R230) -/

theorem step_of_fetchInstr_error {s : State} {f : Fault} (hrun : s.status = .running) (hfetch : fetchInstr s = .error f) :
    step s = .next (s.takeFault f) := by
  rw [step_running hrun, hfetch]
  exact raise_eq f s

/-- A running machine always steps: a fault of fetch or decode is a next state, and so is the end of every instruction. -/
theorem exists_step_next {s : State} (hrun : s.status = .running) : ∃ t, step s = .next t := by
  cases hfetch : fetchInstr s with
  | error f => exact ⟨s.takeFault f, step_of_fetchInstr_error hrun hfetch⟩
  | ok i =>
    obtain ⟨t, hexec, -⟩ := exec_endsWith (s := s.advance) hrun i
    exact ⟨t, (step_of_fetchInstr_ok hrun hfetch).trans hexec⟩

theorem command_step_ok {s t : State} (h : step s = .next t) (ht : t.status = .running) :
    command .step s = .next (t, .ok) := by
  simp only [command, stepCommand, h, ht]

theorem command_step_failed {s t : State} {f : Fault} (h : step s = .next t) (ht : t.status = .faulted f) :
    command .step s = .next (t, .failed f) := by
  simp only [command, stepCommand, h, ht]

/-- Settles O57: the step has a next state (`exists_step_next`), and the reply goes by its status. -/
theorem stepCommandReportsTheFault : Obligations.StepCommandReportsTheFault := by
  unfold Obligations.StepCommandReportsTheFault
  intro s hrun
  obtain ⟨t, hstep⟩ := exists_step_next hrun
  exact ⟨t, hstep, command_step_ok hstep, fun f => command_step_failed hstep⟩

/-! ### The faults of fetch and decode (60_exceptions.md R211, R214) -/

/-- Settles O6: both are the fetch fault `step_raises_memoryOutOfRange`, whose address is the greater of pc and 4096. -/
theorem fetchOutOfRangeFaults : Obligations.FetchOutOfRangeFaults := by
  unfold Obligations.FetchOutOfRangeFaults
  refine fun s hrun => ⟨fun hpc => ?_, fun hpc => ?_⟩
  · have hfault := step_raises_memoryOutOfRange hrun (by omega)
    rwa [Nat.max_eq_left hpc] at hfault
  · have hfault := step_raises_memoryOutOfRange hrun (Nat.le_of_eq hpc.symm)
    rwa [hpc] at hfault

theorem wordOfBytes_eq_ofNat (hi lo : Byte) : wordOfBytes hi lo = BitVec.ofNat 16 (256 * hi.toNat + lo.toNat) := by
  rw [← wordOfBytes_toNat, BitVec.ofNat_toNat, BitVec.setWidth_eq]

theorem fetchInstr_unknownOpcode {s : State} (hpc : s.pc.toNat + 1 < 4096) {op : Word}
    (hop : wordOfBytes (s.mem.byteAt s.pc.toNat) (s.mem.byteAt (s.pc.toNat + 1)) = op) (hdec : decodeWord op = none) :
    fetchInstr s = .error (.unknownOpcode op) := by
  subst hop
  rw [fetchInstr, fetchBytes_ok hpc]
  simp only [decode_error_iff.2 ⟨hdec, rfl⟩]

/-- Settles O7: the step takes the decode fault and the command names it; the machine it leaves is faulted, so it does not step
again. The word 8xyF lies outside the nine function nibbles (30_encoding.md R76). -/
theorem unknownOpcodeStopsTheMachine : Obligations.UnknownOpcodeStopsTheMachine := by
  unfold Obligations.UnknownOpcodeStopsTheMachine
  constructor
  · intro s hrun hpc hdec
    have hstep := step_of_fetchInstr_error hrun (fetchInstr_unknownOpcode hpc (wordOfBytes_eq_ofNat _ _) hdec)
    have hfaulted := s.takeFault_status
    refine ⟨_, hstep, hfaulted _, command_step_failed hstep (hfaulted _), fun u => ?_⟩
    rw [step_faulted (hfaulted _)]
    exact nofun
  · intro x y
    have hword : wordXYN 0x8 x.val y.val 0xF = formXYN 0x8 x y 0xF := wordXYN_eq_form 0x8 x y 0xF
    rw [hword]
    simp [decodeWord, decodeAlu]

/-! ### A faulted machine (60_exceptions.md R218) -/

theorem whenRunning_of_faulted {s : State} {f : Fault} (h : s.status = .faulted f) (r : Reaction) :
    whenRunning s r = .fault f := by
  rw [whenRunning, h]

/-- Settles O8: `step` and the guard of the other four commands both read the fault off the status. -/
theorem faultedMachineIsTerminal : Obligations.FaultedMachineIsTerminal := by
  unfold Obligations.FaultedMachineIsTerminal
  intro s f h
  have hstep := step_faulted h
  have hguard := whenRunning_of_faulted h
  exact ⟨hstep, by rw [command, stepCommand, hstep], hguard _, hguard _, fun _ => hguard _, fun _ _ => hguard _⟩

/-! ### Timers, keypad and display commands (60_exceptions.md R224, R226–R228) -/

theorem tickTimers_onlyChanges (s : State) : OnlyChanges [.dt, .st] s (tickTimers s) :=
  ((s.setDt_onlyChanges _).mono (by simp)).trans ((State.setSt_onlyChanges _ _).mono (by simp))

/-- Settles O52: `countDown_toNat` is the decrement of each timer, and the guard stops a faulted machine. -/
theorem tickTimersSaturates : Obligations.TickTimersSaturates := by
  unfold Obligations.TickTimersSaturates
  intro s
  refine ⟨fun hrun => ⟨tickTimers s, whenRunning_of_running hrun _, ?_, ?_, tickTimers_onlyChanges s⟩,
    fun f h => whenRunning_of_faulted h _⟩
  · exact countDown_toNat s.dt
  · exact countDown_toNat s.st

theorem State.setKeyAt_onlyChanges (s : State) (k : Fin 16) (p : Bool) : OnlyChanges [.key] s (s.setKeyAt k p) := by
  intro q hq
  cases q
  case key => exact absurd (List.mem_singleton_self _) hq
  case mem => exact .refl s .mem
  all_goals rfl

theorem setKey_refused {k : Nat} (h : 15 < k) (p : Bool) (s : State) : setKey k p s = .refused (.setKeyContract k) :=
  dif_neg (Nat.not_lt.2 h)

/-- Settles O53: a key number below 16 writes that key alone, any other is refused by `setKey` itself. -/
theorem setKeySetsOneKey : Obligations.SetKeySetsOneKey := by
  unfold Obligations.SetKeySetsOneKey
  intro s p hrun
  refine ⟨fun k => ⟨s.setKeyAt k p, command_setKey hrun k p, ?_, fun j hj => ?_, s.setKeyAt_onlyChanges k p⟩, fun k hk => ?_⟩
  · rw [setKeyAt_get, if_pos rfl]
  · rw [setKeyAt_get, if_neg hj]
  · rw [← setKey_refused hk p s]
    exact whenRunning_of_running hrun _

/-- Cell (X, Y) stands at index 64·Y + X (43_display.md R174): dividing by the row length gives Y back, the remainder is X. -/
theorem videoCells_getElem? (s : State) (X : Fin 64) (Y : Fin 32) :
    (videoCells s)[Y.val * 64 + X.val]? = some (s.fb.cell X Y) := by
  have hX := X.isLt
  have hY := Y.isLt
  have hrow : (Y.val * 64 + X.val) / 64 = Y.val := by omega
  have hcol : (Y.val * 64 + X.val) % 64 = X.val := by omega
  rw [videoCells, Vector.getElem?_flatten, dif_pos (by omega)]
  simp only [hrow, hcol]
  rfl

/-- Settles O54: each accessor answers its own part of the state (`videoCells_getElem?` for the cells), and the cleared redraw
flag is one named update. -/
theorem accessorsAndConsumeRedraw : Obligations.AccessorsAndConsumeRedraw := by
  unfold Obligations.AccessorsAndConsumeRedraw
  intro s
  exact ⟨⟨videoCells s, rfl, videoCells_getElem? s⟩, rfl, rfl,
    fun hrun => ⟨consumeRedraw s, whenRunning_of_running hrun _, rfl, s.setRedraw_onlyChanges false⟩⟩

end Sys2Proof.Machine

/-! # Reset, load and the finished machine (O15, O22, O55, O56)

`construct` and `load` are named updates with the frames of those updates (70_reset_and_hazards.md R250, R252). The first
step after reset decodes a word of zeros, and a finished machine's step writes pc with the value it had (R251, R261). -/

namespace Sys2Proof.Machine

open Sys2Proof

/-! ### Reset (70_reset_and_hazards.md R250, R251) -/

theorem construct_onlyChanges (s : State) : OnlyChanges [.draws] State.reset (construct s) := by
  intro p hp
  cases p
  case draws => exact absurd (List.mem_singleton_self _) hp
  case mem => exact .refl State.reset .mem
  all_goals rfl

/-- Settles O56: `construct` has no precondition, and its frame is `construct_onlyChanges`. -/
theorem constructResets : Obligations.ConstructResets := by
  unfold Obligations.ConstructResets
  intro s
  exact ⟨construct s, rfl, construct_onlyChanges s, rfl⟩

theorem reset_byteAt_outside_font {a : Nat} (h : a < 0x050 ∨ 0x0A0 ≤ a) : State.reset.mem.byteAt a = 0 :=
  initialByte_outside_font h

/-- Settles O15: both bytes at the reset pc lie outside the font, so they form 0000, which decodes to no instruction. -/
theorem firstStepWithNothingLoaded : Obligations.FirstStepWithNothingLoaded := by
  unfold Obligations.FirstStepWithNothingLoaded
  have hpc : State.reset.pc.toNat = 0x200 := rfl
  have hword : wordOfBytes (State.reset.mem.byteAt State.reset.pc.toNat)
      (State.reset.mem.byteAt (State.reset.pc.toNat + 1)) = 0x0000 := by
    rw [reset_byteAt_outside_font (by omega), reset_byteAt_outside_font (by omega)]
    rfl
  have hillegal : decodeWord 0x0000 = none := rfl
  exact ⟨_, step_of_fetchInstr_error rfl (fetchInstr_unknownOpcode (by omega) hword hillegal), State.takeFault_status ..⟩

/-! ### Loading an image (70_reset_and_hazards.md R252, R253) -/

theorem command_load_ok {s : State} (hrun : s.status = .running) {image : List Byte} (h : image.length ≤ 3584) :
    command (.load image) s = .next (s.setMem (copyImage 0x200 image s.mem), .ok) := by
  have hfits : ¬ Config.maxImage < image.length := Nat.not_lt.2 h
  rw [command, whenRunning_of_running hrun, load, if_neg hfits]
  rfl

theorem command_load_imageTooLarge {s : State} (hrun : s.status = .running) {image : List Byte}
    (h : 3584 < image.length) : command (.load image) s = .next (s, .imageTooLarge image.length) := by
  have hlong : Config.maxImage < image.length := h
  rw [command, whenRunning_of_running hrun, load, if_pos hlong]

/-- Settles O55: an accepted image is copied to 0x200 (`copyImage_spec` gives every byte of memory), a longer one is
rejected before anything is written. -/
theorem loadCopiesTheImage : Obligations.LoadCopiesTheImage := by
  unfold Obligations.LoadCopiesTheImage
  intro s image hrun hm
  refine ⟨fun hlen => ?_, command_load_imageTooLarge hrun⟩
  obtain ⟨-, hbytes⟩ := copyImage_spec image s.mem 0x200 hm (by omega)
  refine ⟨_, command_load_ok hrun hlen, fun j hj => ?_, fun a ha => ?_, s.setMem_onlyChanges _⟩
  · rw [State.setMem_mem, hbytes, if_pos (by omega), Nat.add_sub_cancel_left]
  · rw [State.setMem_mem, hbytes, if_neg (by omega)]

/-! ### The finished machine (70_reset_and_hazards.md R261) -/

/-- Setting pc back to where the advance found it undoes the advance. -/
theorem State.advance_setPc_pc (s : State) : s.advance.setPc s.pc = s := rfl

/-- Settles O22: the word fetched is a jump to the pc it stands at, so the step undoes its own advance. -/
theorem finishedMachineStaysFinished : Obligations.FinishedMachineStaysFinished := by
  unfold Obligations.FinishedMachineStaysFinished
  intro s h ⟨hrun, hpc, nnn, htarget, hfetch⟩
  have hself : immTarget nnn = s.pc := htarget.trans hpc.symm
  calc step s = exec (.jp nnn) s.advance := step_of_fetchInstr_ok hrun hfetch
    _ = .next (s.advance.setPc (immTarget nnn)) := rfl
    _ = .next s := by rw [hself, s.advance_setPc_pc]

end Sys2Proof.Machine
